-- ==== Sys2Proof/Word.lean ====
section
/-! DEFINITION. The two widths of the block: 32-bit registers (00 R6) and 8-bit memory bytes (10 R38, R39). -/

namespace Sys2Proof

/-- A control and status register, or a command word (00 R6, 30 R90). -/
abbrev Word := BitVec 32

/-- One byte of PIX or DAT (10 R38, R39). -/
abbrev Byte := BitVec 8

end Sys2Proof
end

