-- ==== Sys2Proof/Config.lean ====
section
/-! DEFINITION. What an instance of the block fixes, and the one free value of the spec.

PIX_CAP and DAT_CAP are parameters (00 R4, R5); the host reads them in the registers PIXCAP and DATCAP, which State holds,
so a claim about every state is a claim about every pair of capacities. -/

namespace Sys2Proof.Config

/-- The constant of the register ID (10 R24). -/
def idValue : Word := 0x4C534231#32

/-- The PIX_CAP of State.reset. DESIGN CHOICE (log 1): the instance that 95_test_vectors.md uses; safe, since no statement
is about this value. -/
def resetPixCap : Word := 64#32

/-- The DAT_CAP of State.reset. DESIGN CHOICE (log 1), as resetPixCap; safe. -/
def resetDatCap : Word := 8#32

/-- A FREE VALUE (43 R171, 92 D13, 93 I1; log 4): the 32 LSBs of PIX[0 .. 32), bit 31 in PIX[0], that the n-th failed
payload stage of FRAME_ENCODE leaves. It has no body, so a claim holds whatever it is; safe. -/
opaque freePrefix : Nat → BitVec 32

/-- CSR_BASE, where the platform places the CSR space (00 R7): open, read by no rule (log 5); safe. -/
opaque csrBase : Nat

/-- DAT_BASE, where the platform places DAT (00 R7): open, read by no rule (log 5); safe. -/
opaque datBase : Nat

/-- PIX_BASE, where the platform places PIX (00 R7): open, read by no rule (log 5); safe. -/
opaque pixBase : Nat

end Sys2Proof.Config
end

