-- ==== Sys2Proof/Machine/State.lean ====
section
/-! DEFINITION. The state of the block and of the host that drives it, as plain data, and its value right after reset. -/

namespace Sys2Proof.Machine

/-- The error codes of STATUS.ERR (60 R191). The values 6 to 15 are never produced (10 R28), so they have no constructor. -/
inductive ErrCode where
  | ok            -- 0
  | range         -- 1, RangeError         (60 R192)
  | capacity      -- 2, CapacityError      (60 R193)
  | outOfBounds   -- 3, OutOfBoundsError   (60 R194)
  | illegalCmd    -- 4, ILLEGAL_CMD        (60 R195)
  | badConfig     -- 5, BAD_CONFIG         (60 R196)
deriving DecidableEq, Repr

/-- The fields of the register STATUS (10 R28); its reserved bits are always 0 and are no fields. -/
structure Status where
  busy : Bool
  done : Bool
  err  : ErrCode
  ovr  : Bool
deriving DecidableEq, Repr

/-- The three address spaces (20 R60). -/
inductive Space where
  | csr
  | dat
  | pix
deriving DecidableEq, Repr

/-- What a host read returns: a register or a byte (20 R62, R63). -/
inductive HostValue where
  | word (v : Word)
  | byte (v : Byte)
deriving DecidableEq, Repr

/-- One statement of a host program: the transactions of 20 R61, with the name a read binds (30 R96), and WAIT (30 R97).
A write of width 1 carries bits 7:0 of data (log 7). -/
inductive HostStmt where
  | read  (space : Space) (addr width : Nat) (name : String)
  | write (space : Space) (addr width : Nat) (data : Word)
  | wait
deriving DecidableEq, Repr

/-- Who takes the next step: the core agent (30 R99), the host agent (30 R98), or the platform asserting reset (70 R220). -/
inductive Turn where
  | core
  | host
  | reset
deriving DecidableEq, Repr

/-- The model fault set (10 R42): which of the three model faults of 60 R202 it holds. -/
structure FaultSet where
  hostRace     : Bool
  uninitRead   : Bool
  hostBusError : Bool
deriving DecidableEq, Repr

/-- A byte memory: the initialised bytes, addresses strictly rising. An address that is not listed has init mark 0
(10 R40): it reads as no value, so no entry can equal what an unlisted address reads as (log 2). -/
abbrev Memory := List Host.Cell

/-- The machine's state. -/
structure State where
  /-- PIXCAP (10 R25): the parameter PIX_CAP (00 R4). -/
  pixcap    : Word
  /-- DATCAP (10 R26): the parameter DAT_CAP (00 R5). -/
  datcap    : Word
  /-- CMD (10 R27): the last accepted command word. -/
  cmd       : Word
  /-- STATUS (10 R28). -/
  status    : Status
  /-- BUF_LEN (10 R30). -/
  bufLen    : Word
  /-- BIT_OFFSET (10 R31). -/
  bitOffset : Word
  /-- DATA_LEN (10 R32). -/
  dataLen   : Word
  /-- LEN_IN_LO (10 R33). -/
  lenInLo   : Word
  /-- LEN_IN_HI (10 R33). -/
  lenInHi   : Word
  /-- LEN_BYTES (10 R34). -/
  lenBytes  : Word
  /-- RESULT (10 R35). -/
  result    : Word
  /-- PIX with its init marks (10 R38, R40). -/
  pix       : Memory
  /-- DAT with its init marks (10 R39, R40). -/
  dat       : Memory
  /-- The model fault set (10 R42). -/
  faults    : FaultSet
  /-- The model's own: how many free prefixes have been drawn (log 4). -/
  draws     : Nat
  /-- The rest of the host program (30 R98); host state. -/
  prog      : List HostStmt
  /-- The host program's bound names (30 R96); host state. -/
  names     : List (String × HostValue)
  /-- The model's own: whose turns come next (log 3). -/
  sched     : List Turn
deriving DecidableEq, Repr

/-- The model faults (60 R202). Each ends the run with no next state, as the spec says; safe (toward unprovable). -/
inductive Fault where
  /-- The host read or wrote DAT or PIX while BUSY = 1 (20 R67). Raised by hostRead and hostWrite. Safe. -/
  | hostRace
  /-- The host or a command read a byte whose init mark is 0 (20 R66, R70). Raised by hostRead and by the commands that
  read DAT or PIX. Safe. -/
  | uninitRead
  /-- A host transaction broke 20 R62 or R63 (20 R64). Raised by hostRead and hostWrite. Safe. -/
  | hostBusError
deriving DecidableEq, Repr

/-- Why a step has no meaning. -/
inductive Refusal where
  /-- Reserved for an instruction without a meaning; no arm of exec raises it now. Safe. -/
  | notModelled (mnemonic : String)
  /-- The capacities break 00 R5 (DAT_CAP < PIX_CAP / 8): "A model must refuse any configuration that breaks this
  constraint". Raised by step. Safe. -/
  | invalidConfig
deriving DecidableEq, Repr

/-- STATUS after reset (70 R220). -/
def Status.reset : Status := ⟨false, false, .ok, false⟩

/-- The fault set at the start of a run (10 R42). -/
def FaultSet.empty : FaultSet := ⟨false, false, false⟩

/-- The machine right after reset at the start of a run, for the capacities given (70 R220, R221; 10 R42). -/
def State.resetWith (pixCap datCap : Word) : State where
  pixcap := pixCap
  datcap := datCap
  cmd := 0#32
  status := Status.reset
  bufLen := 0#32
  bitOffset := 0#32
  dataLen := 0#32
  lenInLo := 0#32
  lenInHi := 0#32
  lenBytes := 0#32
  result := 0#32
  pix := []
  dat := []
  faults := FaultSet.empty
  draws := 0
  prog := []
  names := []
  sched := []

/-- The machine right after reset, with the capacities of log 1. -/
def State.reset : State := State.resetWith Config.resetPixCap Config.resetDatCap

end Sys2Proof.Machine
end

