-- ==== Sys2Proof/Machine/Flags.lean ====
section
/-! DEFINITION. The STATUS flags: their numbers, the register as software reads it, and what each event does to them
(10 R27 to R29, R37; 30 R99; 60 R191). -/

namespace Sys2Proof.Machine

/-- The number of an error code (60 R191). -/
def errNumber : ErrCode → BitVec 4
  | .ok => 0#4
  | .range => 1#4
  | .capacity => 2#4
  | .outOfBounds => 3#4
  | .illegalCmd => 4#4
  | .badConfig => 5#4

/-- STATUS as the host reads it (10 R28): reserved 31:9, OVR 8, ERR 7:4, reserved 3:2, DONE 1, BUSY 0. -/
def statusWord (st : Status) : Word :=
  0#23 ++ BitVec.ofBool st.ovr ++ errNumber st.err ++ 0#2 ++ BitVec.ofBool st.done ++ BitVec.ofBool st.busy

/-- The flags when a CMD write is accepted (10 R27): BUSY <- 1, DONE <- 0, ERR <- 0, OVR unchanged. -/
def statusAccept (st : Status) : Status := { st with busy := true, done := false, err := .ok }

/-- The flags when a command completes (30 R99): BUSY <- 0, DONE <- 1, ERR <- code, OVR unchanged. -/
def statusComplete (st : Status) (e : ErrCode) : Status := { st with busy := false, done := true, err := e }

/-- The flags when a CSR write is dropped (10 R37): OVR <- 1. -/
def statusOverrun (st : Status) : Status := { st with ovr := true }

/-- The flags when the host writes v to STATUS while BUSY = 0 (10 R29): bit 1 clears DONE and ERR, bit 8 clears OVR. -/
def statusClear (st : Status) (v : Word) : Status :=
  { busy := st.busy
    done := if v.getLsbD 1 then false else st.done
    err  := if v.getLsbD 1 then .ok else st.err
    ovr  := if v.getLsbD 8 then false else st.ovr }

end Sys2Proof.Machine
end

