-- ==== Sys2Proof/Machine/Operands.lean ====
section
/-! DEFINITION. Operand assembly: the 64-bit operand of LEN_TO_BYTES (10 R33), the length codec's two functions (40 R110,
R111), and bit streams (00 R10, R11). -/

namespace Sys2Proof.Machine

/-- Lsb(b) = b[0] (00 R10). -/
def lsb (b : Byte) : Bool := b.getLsbD 0

/-- WithLsb(b, x) = b[7:1] : x (00 R10). -/
def withLsb (b : Byte) (x : Bool) : Byte := b.extractLsb' 1 7 ++ BitVec.ofBool x

/-- b[7:1], the bits of a carrier that no command changes (41 R132). -/
def upperBits (b : Byte) : BitVec 7 := b.extractLsb' 1 7

/-- The bits of a byte, bit 7 first (00 R11). -/
def byteBits (b : Byte) : List Bool :=
  [b.getLsbD 7, b.getLsbD 6, b.getLsbD 5, b.getLsbD 4, b.getLsbD 3, b.getLsbD 2, b.getLsbD 1, b.getLsbD 0]

/-- The bit stream of a byte sequence: s[8j + k] = d[j][7 - k] (00 R11). -/
def bitStream : List Byte → List Bool
  | [] => []
  | b :: bs => byteBits b ++ bitStream bs

/-- The sum of s[i] * 2^(n - 1 - i) over a stream of n bits: its value, MSB first (00 R11). -/
def bitsValue : List Bool → Nat
  | [] => 0
  | b :: bs => b.toNat * 2 ^ bs.length + bitsValue bs

/-- Bytes assembled from a bit stream, 8 bits a byte, MSB first (00 R11). -/
def packBytes : List Bool → List Byte
  | b0 :: b1 :: b2 :: b3 :: b4 :: b5 :: b6 :: b7 :: rest =>
    BitVec.ofNat 8 (bitsValue [b0, b1, b2, b3, b4, b5, b6, b7]) :: packBytes rest
  | _ => []

/-- The operand n = sint64(LEN_IN_HI : LEN_IN_LO) of LEN_TO_BYTES (10 R33). -/
def lenOperand (s : State) : Int := (s.lenInHi ++ s.lenInLo : BitVec 64).toInt

/-- The four big-endian bytes of a 32-bit value (00 R3, 40 R110). -/
def wordBytes (v : Word) : List Byte :=
  [v.extractLsb' 24 8, v.extractLsb' 16 8, v.extractLsb' 8 8, v.extractLsb' 0 8]

/-- ToBytes32(n) (40 R110): the four bytes of n, or RangeError. -/
def toBytes32 (n : Int) : Except ErrCode (List Byte) :=
  if n < 0 ∨ 2 ^ 32 - 1 < n then .error .range else .ok (wordBytes (BitVec.ofInt 32 n))

/-- FromBytes32(b0, b1, b2, b3) (40 R111). -/
def fromBytes32 (b0 b1 b2 b3 : Byte) : Nat :=
  2 ^ 24 * b0.toNat + 2 ^ 16 * b1.toNat + 2 ^ 8 * b2.toNat + b3.toNat

/-- A byte sequence as the register LEN_BYTES holds it: b0 in bits 31:24 down to b3 in bits 7:0 (10 R34). -/
def packLenBytes : List Byte → Word
  | [b0, b1, b2, b3] => b0 ++ b1 ++ b2 ++ b3
  | _ => 0#32

/-- Byte j of a byte sequence, as the byte source of LsbWrite reads it (41 R130). -/
def listSource (bs : List Byte) (j : Nat) : Option Byte := bs[j]?

end Sys2Proof.Machine
end

