-- ==== Sys2Proof/Machine/Ops.lean ====
section
/-! DEFINITION. The named operations over memory and registers, what a command ends in, and its completion: the block's one
way of reporting an error (60 R190). -/

namespace Sys2Proof.Machine

/-- The byte at an address, or none where its init mark is 0 (10 R40, 20 R70). -/
def Memory.read : Memory → Nat → Option Byte
  | [], _ => none
  | (k, b) :: m, a => if k = a then some b else Memory.read m a

/-- Storing a byte and setting its init mark (20 R70), keeping the addresses rising. -/
def Memory.write : Memory → Nat → Byte → Memory
  | [], a, v => [(a, v)]
  | (k, b) :: m, a, v =>
    if a < k then (a, v) :: (k, b) :: m else if a = k then (a, v) :: m else (k, b) :: Memory.write m a v

/-- The canonical form: addresses strictly rising. An unlisted address reads as no value, so no entry can equal it. -/
abbrev Memory.wf (m : Memory) : Prop := List.Pairwise (fun c d : Host.Cell => c.1 < d.1) m

/-- Every listed address is below the memory's capacity (10 R38, R39). -/
abbrev Memory.below (m : Memory) (cap : Nat) : Prop := ∀ c ∈ m, c.1 < cap

/-- Storing a byte sequence at consecutive addresses from a. -/
def Memory.writeSeq : Memory → Nat → List Byte → Memory
  | m, _, [] => m
  | m, a, b :: bs => Memory.writeSeq (Memory.write m a b) (a + 1) bs

/-- A carrier write (20 R70): the carrier is read, then stored with bit 0 replaced; none is UNINIT_READ. -/
def writeCarrier (m : Memory) (p : Nat) (x : Bool) : Option Memory :=
  match Memory.read m p with
  | none => none
  | some b => some (Memory.write m p (withLsb b x))

/-- Writing a bit stream into the carriers from p, one bit a carrier, in increasing order (20 R69, 41 R130). -/
def writeCarriers : Memory → Nat → List Bool → Option Memory
  | m, _, [] => some m
  | m, p, x :: xs =>
    match writeCarrier m p x with
    | none => none
    | some m' => writeCarriers m' (p + 1) xs

/-- Reading the LSBs of n carriers from p (42 R150); none is UNINIT_READ. -/
def readCarriers (m : Memory) : Nat → Nat → Option (List Bool)
  | _, 0 => some []
  | p, n + 1 =>
    match Memory.read m p with
    | none => none
    | some b =>
      match readCarriers m (p + 1) n with
      | none => none
      | some xs => some (lsb b :: xs)

/-- The n bytes that the byte source d yields from index j on (41 R130); none is UNINIT_READ. -/
def gatherBytes (d : Nat → Option Byte) : Nat → Nat → Option (List Byte)
  | _, 0 => some []
  | j, n + 1 =>
    match d j with
    | none => none
    | some b =>
      match gatherBytes d (j + 1) n with
      | none => none
      | some bs => some (b :: bs)

/-- How a command's pseudocode ends: normally, in `raise E`, or in `fault F` (00 R10). A raise keeps the writes made. -/
inductive CmdResult where
  | done (s : State)
  | raised (e : ErrCode) (s : State)
  | faulted (f : Fault)

/-- The completion of a command with a code (30 R99, 60 R190): only STATUS is written. -/
def State.complete (s : State) (e : ErrCode) : State := { s with status := statusComplete s.status e }

/-- What a command's step answers (30 R99): the completion with code 0 or the error's code, or the model fault (60 R202). -/
def finishCommand : CmdResult → Host.Outcome State Fault Refusal
  | .done s => .next (s.complete .ok)
  | .raised e s => .next (s.complete e)
  | .faulted f => .fault f

/-- Going on with a command after one of its procedures, unless that ended it. -/
def CmdResult.andThen : CmdResult → (State → CmdResult) → CmdResult
  | .done s, k => k s
  | .raised e s, _ => .raised e s
  | .faulted f, _ => .faulted f

/-- PIX replaced (10 R38). -/
def State.setPix (s : State) (m : Memory) : State := { s with pix := m }

/-- DAT replaced (10 R39). -/
def State.setDat (s : State) (m : Memory) : State := { s with dat := m }

/-- RESULT written (10 R35). -/
def State.setResult (s : State) (v : Word) : State := { s with result := v }

/-- LEN_BYTES written (10 R34). -/
def State.setLenBytes (s : State) (v : Word) : State := { s with lenBytes := v }

/-- The next free value's number taken (log 4). -/
def State.nextDraw (s : State) : State := { s with draws := s.draws + 1 }

/-- The check before every command that accesses PIX: BUF_LEN > PIX_CAP raises BadConfig (30 R99, 60 R196). -/
def checkConfig (s : State) (k : State → CmdResult) : CmdResult :=
  if s.pixcap.toNat < s.bufLen.toNat then .raised .badConfig s else k s

/-- LsbWrite(off, n, d) (41 R130): the check comes before any read or write. -/
def lsbWrite (s : State) (off n : Nat) (d : Nat → Option Byte) : CmdResult :=
  if s.bufLen.toNat < off + 8 * n then .raised .capacity s
  else
    match gatherBytes d 0 n with
    | none => .faulted .uninitRead
    | some bs =>
      match writeCarriers s.pix off (bitStream bs) with
      | none => .faulted .uninitRead
      | some m => .done (s.setPix m)

/-- LsbReadBits(off, count) (42 R150), handing the bit stream on; the check comes before any read. -/
def lsbReadBits (s : State) (off count : Nat) (k : List Bool → CmdResult) : CmdResult :=
  if s.bufLen.toNat < off + count then .raised .outOfBounds s
  else
    match readCarriers s.pix off count with
    | none => .faulted .uninitRead
    | some xs => k xs

/-- The model fault set after recording a fault (10 R42, 60 R202). -/
def recordFault (fs : FaultSet) : Fault → FaultSet
  | .hostRace => { fs with hostRace := true }
  | .uninitRead => { fs with uninitRead := true }
  | .hostBusError => { fs with hostBusError := true }

/-- The fault set of a run after a step from s: a step that records a fault has no next state, so the set is read off the
outcome (60 R202). -/
def faultsAfter (s : State) : Host.Outcome State Fault Refusal → FaultSet
  | .next t => t.faults
  | .fault f => recordFault s.faults f
  | .refused _ => s.faults

end Sys2Proof.Machine
end

