-- ==== Sys2Proof/Machine/LengthCodec.lean ====
section
/-! DEFINITION. The LengthCodec commands (40_length_codec.md). -/

namespace Sys2Proof.Machine

/-- LEN_TO_BYTES (40 R112). -/
def execLenToBytes (s : State) : Host.Outcome State Fault Refusal :=
  finishCommand
    (match toBytes32 (lenOperand s) with
     | .error e => .raised e s
     | .ok bs => .done (s.setLenBytes (packLenBytes bs)))

/-- LEN_FROM_BYTES (40 R113). -/
def execLenFromBytes (s : State) : Host.Outcome State Fault Refusal :=
  finishCommand
    (.done (s.setResult (BitVec.ofNat 32
      (fromBytes32 (s.lenBytes.extractLsb' 24 8) (s.lenBytes.extractLsb' 16 8)
        (s.lenBytes.extractLsb' 8 8) (s.lenBytes.extractLsb' 0 8)))))

end Sys2Proof.Machine
end

