-- ==== Sys2Proof/Machine/LsbDecoder.lean ====
section
/-! DEFINITION. The LsbDecoder commands (42_lsb_decoder.md). -/

namespace Sys2Proof.Machine

/-- LSB_READ_INT (42 R151): 32 bits from BIT_OFFSET, MSB first, into RESULT. -/
def execLsbReadInt (s : State) : Host.Outcome State Fault Refusal :=
  finishCommand
    (checkConfig s fun s =>
      lsbReadBits s s.bitOffset.toNat 32 fun xs => .done (s.setResult (BitVec.ofNat 32 (bitsValue xs))))

/-- LSB_READ_BYTES (42 R152): 8 * DATA_LEN bits from BIT_OFFSET, as bytes into DAT[0 .. DATA_LEN). -/
def execLsbReadBytes (s : State) : Host.Outcome State Fault Refusal :=
  finishCommand
    (checkConfig s fun s =>
      lsbReadBits s s.bitOffset.toNat (8 * s.dataLen.toNat) fun xs =>
        .done (s.setDat (Memory.writeSeq s.dat 0 (packBytes xs))))

end Sys2Proof.Machine
end

