-- ==== Sys2Proof/Machine/LsbEncoder.lean ====
section
/-! DEFINITION. The LsbEncoder command (41_lsb_encoder.md). -/

namespace Sys2Proof.Machine

/-- LSB_WRITE (41 R131): LsbWrite(BIT_OFFSET, DATA_LEN, DAT). -/
def execLsbWrite (s : State) : Host.Outcome State Fault Refusal :=
  finishCommand
    (checkConfig s fun s => lsbWrite s s.bitOffset.toNat s.dataLen.toNat (Memory.read s.dat))

end Sys2Proof.Machine
end

