-- ==== Sys2Proof/Machine/PayloadFramer.lean ====
section
/-! DEFINITION. The PayloadFramer commands (43_payload_framer.md). -/

namespace Sys2Proof.Machine

/-- Writing a 32-bit length into the carriers PIX[0 .. 32): LsbWrite(0, 4, its bytes) (43 R170). -/
def writeLenPrefix (s : State) (v : Word) : CmdResult := lsbWrite s 0 4 (listSource (wordBytes v))

/-- The LSBs of PIX[0 .. 32) after a failed payload stage (43 R171, 92 D13; log 4): a fresh free value in their place.
Bits 7..1 stay, and no other byte changes. -/
def drawLenPrefix (s : State) : CmdResult :=
  writeLenPrefix s.nextDraw (Config.freePrefix s.draws)

/-- The payload stage of FRAME_ENCODE (43 R170), and what its failure leaves (43 R171). -/
def framePayload (s : State) : CmdResult :=
  match lsbWrite s 32 s.dataLen.toNat (Memory.read s.dat) with
  | .done t => .done t
  | .faulted f => .faulted f
  | .raised e t => (drawLenPrefix t).andThen fun u => .raised e u

/-- FRAME_ENCODE (43 R170): the length prefix at carrier 0, then the payload at carrier 32. -/
def execFrameEncode (s : State) : Host.Outcome State Fault Refusal :=
  finishCommand (checkConfig s fun s => (writeLenPrefix s s.dataLen).andThen framePayload)

/-- FRAME_DECODE (43 R172): the length L from carrier 0, its check, L bytes from carrier 32 into DAT, and L into RESULT. -/
def execFrameDecode (s : State) : Host.Outcome State Fault Refusal :=
  finishCommand
    (checkConfig s fun s =>
      lsbReadBits s 0 32 fun xs =>
        lsbReadBits s 32 (8 * bitsValue xs) fun ys =>
          .done ((s.setDat (Memory.writeSeq s.dat 0 (packBytes ys))).setResult (BitVec.ofNat 32 (bitsValue xs))))

end Sys2Proof.Machine
end

