-- ==== Sys2Proof/Syntax.lean ====
section
/-! DEFINITION. The commands of the block: one constructor per row of spec/opcode_table.json (30 R91). -/

namespace Sys2Proof

/-- The seven commands. A command word carries no operand field (30 R90, R93), so no constructor has an argument. -/
inductive Instr where
  | lenToBytes    -- LEN_TO_BYTES   (40 R112)
  | lenFromBytes  -- LEN_FROM_BYTES (40 R113)
  | lsbWrite      -- LSB_WRITE      (41 R131)
  | lsbReadInt    -- LSB_READ_INT   (42 R151)
  | lsbReadBytes  -- LSB_READ_BYTES (42 R152)
  | frameEncode   -- FRAME_ENCODE   (43 R170)
  | frameDecode   -- FRAME_DECODE   (43 R172)
deriving DecidableEq, Repr

end Sys2Proof
end

