-- ==== Sys2Proof/Machine/Dispatch.lean ====
section
/-! DEFINITION. The dispatch of 30 R99: one arm per command. -/

namespace Sys2Proof.Machine

def exec (i : Instr) (s : State) : Host.Outcome State Fault Refusal :=
  match i with
  | .lenToBytes => Sys2Proof.Machine.execLenToBytes s
  | .lenFromBytes => Sys2Proof.Machine.execLenFromBytes s
  | .lsbWrite => Sys2Proof.Machine.execLsbWrite s
  | .lsbReadInt => Sys2Proof.Machine.execLsbReadInt s
  | .lsbReadBytes => Sys2Proof.Machine.execLsbReadBytes s
  | .frameEncode => Sys2Proof.Machine.execFrameEncode s
  | .frameDecode => Sys2Proof.Machine.execFrameDecode s

end Sys2Proof.Machine
end

