-- ==== Sys2Proof/WellFormed.lean ====
section
/-! DEFINITION. What must hold of a command and of a configuration before the machine may use it.
The legality of a host transaction is State.legal of Machine/Port.lean (20 R62, R63). -/

namespace Sys2Proof

/-- Every command is well formed: it carries no operand that could be out of range (30 R90, R93). -/
def Instr.wellFormed : Instr → Bool
  | .lenToBytes => true
  | .lenFromBytes => true
  | .lsbWrite => true
  | .lsbReadInt => true
  | .lsbReadBytes => true
  | .frameEncode => true
  | .frameDecode => true

/-- The constraint floor(PIX_CAP / 8) <= DAT_CAP (00 R5). The upper bounds 2^32 - 1 are those of the type. -/
def Config.capsValid (pixCap datCap : Word) : Bool :=
  decide (pixCap.toNat / 8 ≤ datCap.toNat)

end Sys2Proof
end

