-- ==== Sys2Proof/Decode.lean ====
section
/-! DEFINITION. Decoding a command word (30 R90 to R92, R95), total on every word and rejecting by name, and the encoder. -/

namespace Sys2Proof

/-- Why a command word is illegal (30 R92). Every reason completes with ILLEGAL_CMD (30 R95, 60 R195). -/
inductive IllegalWord where
  | reservedBits   -- some bit of RSV = w[31:4] is set
  | opZero         -- RSV = 0 and OP = 0x0
  | opUnassigned   -- RSV = 0 and OP in 0x8 .. 0xF
deriving DecidableEq, Repr

/-- What a command word decodes to. -/
inductive Decoded where
  | instr (i : Instr)
  | illegal (why : IllegalWord)
deriving DecidableEq, Repr

/-- The field OP = w[3:0] (30 R90). -/
def opField (w : Word) : BitVec 4 := w.extractLsb' 0 4

/-- The field RSV = w[31:4] (30 R90). -/
def rsvField (w : Word) : BitVec 28 := w.extractLsb' 4 28

/-- The opcode map of 30 R91 on the field OP, numbered. -/
def decodeOp : Nat → Decoded
  | 0 => .illegal .opZero
  | 1 => .instr .lenToBytes
  | 2 => .instr .lenFromBytes
  | 3 => .instr .lsbWrite
  | 4 => .instr .lsbReadInt
  | 5 => .instr .lsbReadBytes
  | 6 => .instr .frameEncode
  | 7 => .instr .frameDecode
  | _ => .illegal .opUnassigned

/-- Decoding (30 R92): legal if and only if RSV = 0 and 1 <= OP <= 7. -/
def decode (w : Word) : Decoded :=
  if rsvField w = 0#28 then decodeOp (opField w).toNat else .illegal .reservedBits

/-- The command inside what a word decodes to, if it is legal. -/
def Decoded.instr? : Decoded → Option Instr
  | .instr i => some i
  | .illegal _ => none

/-- The field OP of a command (30 R91). -/
def opCode : Instr → BitVec 4
  | .lenToBytes => 0x1#4
  | .lenFromBytes => 0x2#4
  | .lsbWrite => 0x3#4
  | .lsbReadInt => 0x4#4
  | .lsbReadBytes => 0x5#4
  | .frameEncode => 0x6#4
  | .frameDecode => 0x7#4

/-- The command word RSV : OP with RSV = 0 (30 R90, R91). -/
def encode (i : Instr) : Word := 0#28 ++ opCode i

/-- The command word of an opcode-table row of nbits bits: a command is one 32-bit word (30 R94), so bits above nbits are 0. -/
def tableWord (nbits w : Nat) : Word := BitVec.ofNat 32 (w % 2 ^ nbits)

/-- The command this decoder reads from a table word; a word that does not fit in 32 bits is no command (30 R94). -/
def decodeTableWord (nbits w : Nat) : Option Instr :=
  if w % 2 ^ nbits < 2 ^ 32 then (decode (tableWord nbits w)).instr? else none

end Sys2Proof
end

