-- ==== Sys2Proof/Machine/Csr.lean ====
section
/-! DEFINITION. The control and status registers: their map (10_state.md section 2), and what a host read and a host write
of one do (10 R24 to R37). -/

namespace Sys2Proof.Machine

/-- The named registers (10_state.md section 2). -/
inductive Csr where
  | id
  | pixcap
  | datcap
  | cmd
  | status
  | bufLen
  | bitOffset
  | dataLen
  | lenInLo
  | lenInHi
  | lenBytes
  | result
deriving DecidableEq, Repr

/-- A register's byte offset in the CSR space (10_state.md section 2). -/
def csrOffset : Csr → Nat
  | .id => 0x00
  | .pixcap => 0x04
  | .datcap => 0x08
  | .cmd => 0x0C
  | .status => 0x10
  | .bufLen => 0x14
  | .bitOffset => 0x18
  | .dataLen => 0x1C
  | .lenInLo => 0x20
  | .lenInHi => 0x24
  | .lenBytes => 0x28
  | .result => 0x2C

/-- The register at an offset; none at the reserved offsets 0x30 to 0xFC (10 R36). -/
def csrAt : Nat → Option Csr
  | 0x00 => some .id
  | 0x04 => some .pixcap
  | 0x08 => some .datcap
  | 0x0C => some .cmd
  | 0x10 => some .status
  | 0x14 => some .bufLen
  | 0x18 => some .bitOffset
  | 0x1C => some .dataLen
  | 0x20 => some .lenInLo
  | 0x24 => some .lenInHi
  | 0x28 => some .lenBytes
  | 0x2C => some .result
  | _ => none

/-- What a register reads as (10 R24 to R35). -/
def csrValue (s : State) : Csr → Word
  | .id => Config.idValue
  | .pixcap => s.pixcap
  | .datcap => s.datcap
  | .cmd => s.cmd
  | .status => statusWord s.status
  | .bufLen => s.bufLen
  | .bitOffset => s.bitOffset
  | .dataLen => s.dataLen
  | .lenInLo => s.lenInLo
  | .lenInHi => s.lenInHi
  | .lenBytes => s.lenBytes
  | .result => s.result

/-- A host read of a CSR offset: the register, or zero at a reserved offset (10 R36). It has no side effect (20 R73). -/
def csrRead (s : State) (off : Nat) : Word :=
  match csrAt off with
  | some r => csrValue s r
  | none => 0#32

/-- An accepted command word (10 R27): every value is accepted, an illegal word too. -/
def State.acceptCommand (s : State) (w : Word) : State := { s with cmd := w, status := statusAccept s.status }

/-- A host write of a register while BUSY = 0 (10 R27, R29 to R35, R37): a read-only register does not change. -/
def csrStore (s : State) (v : Word) : Csr → State
  | .id => s
  | .pixcap => s
  | .datcap => s
  | .cmd => s.acceptCommand v
  | .status => { s with status := statusClear s.status v }
  | .bufLen => { s with bufLen := v }
  | .bitOffset => { s with bitOffset := v }
  | .dataLen => { s with dataLen := v }
  | .lenInLo => { s with lenInLo := v }
  | .lenInHi => { s with lenInHi := v }
  | .lenBytes => { s with lenBytes := v }
  | .result => s

/-- A host write of a CSR offset: while BUSY = 1 it is dropped and sets OVR (10 R37); else it stores, and a reserved offset
ignores it (10 R36). -/
def csrWrite (s : State) (off : Nat) (v : Word) : State :=
  if s.status.busy then { s with status := statusOverrun s.status }
  else
    match csrAt off with
    | some r => csrStore s v r
    | none => s

end Sys2Proof.Machine
end

