-- ==== Sys2Proof/Machine/Port.lean ====
section
/-! DEFINITION. The host port (20_memory.md sections 2 and 5): which transactions are legal, and what each does. -/

namespace Sys2Proof.Machine

/-- A legal transaction: 32-bit, aligned and at most 0xFC for CSR (20 R62), one byte below the capacity for DAT and PIX
(20 R63). BUF_LEN does not limit the host. -/
def State.legal (s : State) : Space → Nat → Nat → Bool
  | .csr, addr, width => decide (width = 4 ∧ addr % 4 = 0 ∧ addr ≤ 0xFC)
  | .dat, addr, width => decide (width = 1 ∧ addr < s.datcap.toNat)
  | .pix, addr, width => decide (width = 1 ∧ addr < s.pixcap.toNat)

/-- A host read of a byte memory: a race while BUSY = 1 (20 R67), else the byte if its mark is 1 (20 R66). -/
def readByte (s : State) (m : Memory) (addr : Nat) : Except Fault HostValue :=
  if s.status.busy then .error .hostRace
  else
    match Memory.read m addr with
    | none => .error .uninitRead
    | some b => .ok (.byte b)

/-- HostRead (20 R61 to R67). -/
def hostRead (s : State) (space : Space) (addr width : Nat) : Except Fault HostValue :=
  if s.legal space addr width then
    match space with
    | .csr => .ok (.word (csrRead s addr))
    | .dat => readByte s s.dat addr
    | .pix => readByte s s.pix addr
  else .error .hostBusError

/-- A host write of a byte memory: a race while BUSY = 1 (20 R67), else it stores and sets the mark (20 R65). -/
def writeByte (s : State) (t : State) : Except Fault State :=
  if s.status.busy then .error .hostRace else .ok t

/-- HostWrite (20 R61 to R67). A transaction of width 1 carries bits 7:0 of data (log 7). -/
def hostWrite (s : State) (space : Space) (addr width : Nat) (data : Word) : Except Fault State :=
  if s.legal space addr width then
    match space with
    | .csr => .ok (csrWrite s addr data)
    | .dat => writeByte s (s.setDat (Memory.write s.dat addr (data.extractLsb' 0 8)))
    | .pix => writeByte s (s.setPix (Memory.write s.pix addr (data.extractLsb' 0 8)))
  else .error .hostBusError

/-- Where the platform places an index of a space (20 R75, 00 R7); no rule depends on it. -/
def platformAddress : Space → Nat → Nat
  | .csr, i => Config.csrBase + i
  | .dat, i => Config.datBase + i
  | .pix, i => Config.pixBase + i

end Sys2Proof.Machine
end

