-- ==== Sys2Proof/Machine/HostProgram.lean ====
section
/-! DEFINITION. Host programs: the statements and pseudo-statements of 30 R96 and R97 as the transactions they stand for. -/

namespace Sys2Proof.Machine

/-- `WR <csr>, <v32>` (30 R96). -/
def stmtWR (r : Csr) (v : Word) : HostStmt := .write .csr (csrOffset r) 4 v

/-- `RD <csr> -> <x>` (30 R96). -/
def stmtRD (r : Csr) (x : String) : HostStmt := .read .csr (csrOffset r) 4 x

/-- `WB <S>, <i>, <v8>` (30 R96). -/
def stmtWB (sp : Space) (i : Nat) (v : Byte) : HostStmt := .write sp i 1 (v.setWidth 32)

/-- `RB <S>, <i> -> <x>` (30 R96). -/
def stmtRB (sp : Space) (i : Nat) (x : String) : HostStmt := .read sp i 1 x

/-- `CMD <mnemonic>` (30 R97). -/
def stmtCMD (i : Instr) : HostStmt := stmtWR .cmd (encode i)

/-- `RUN <mnemonic>`: CMD, then WAIT (30 R97). -/
def stmtsRUN (i : Instr) : List HostStmt := [stmtCMD i, .wait]

/-- `CLR`: clears DONE, ERR and OVR (30 R97). -/
def stmtCLR : HostStmt := stmtWR .status 0x00000102#32

/-- `LOAD <S>, <i>, [b0, ..., bk]` (30 R97). -/
def stmtsLOAD (sp : Space) : Nat → List Byte → List HostStmt
  | _, [] => []
  | i, b :: bs => stmtWB sp i b :: stmtsLOAD sp (i + 1) bs

/-- `FILL <S>, <i>, <n>, <b>` (30 R97). -/
def stmtsFILL (sp : Space) (i n : Nat) (b : Byte) : List HostStmt := stmtsLOAD sp i (List.replicate n b)

/-- Binding a read's value to a host-side name (30 R96); a name has its latest value. -/
def bindName (names : List (String × HostValue)) (x : String) (v : HostValue) : List (String × HostValue) :=
  (x, v) :: names.filter fun e => decide (e.1 ≠ x)

/-- The bit s[0] that WAIT tests in the STATUS word it read (30 R97). -/
def waitBit : HostValue → Bool
  | .word v => v.getLsbD 0
  | .byte b => b.getLsbD 0

/-- One host transaction: the first statement of what is left of the program (30 R98). A WAIT reads STATUS once; it stays
the current statement while BUSY = 1, and its own s is no name of the program (log 6). A program that has ended does nothing. -/
def hostStep (s : State) : Host.Outcome State Fault Refusal :=
  match s.prog with
  | [] => .next s
  | .read sp a w x :: rest =>
    match hostRead s sp a w with
    | .error f => .fault f
    | .ok v => .next { s with prog := rest, names := bindName s.names x v }
  | .write sp a w d :: rest =>
    match hostWrite s sp a w d with
    | .error f => .fault f
    | .ok t => .next { t with prog := rest }
  | .wait :: rest =>
    match hostRead s .csr (csrOffset .status) 4 with
    | .error f => .fault f
    | .ok v => if waitBit v then .next s else .next { s with prog := rest }

end Sys2Proof.Machine
end

