-- ==== Sys2Proof/Machine/Agents.lean ====
section
/-! DEFINITION. The steps of the agents: the core agent's (30 R99), the host agent's (30 R98), the reset event (70 R220),
and whose turn it is (log 3). -/

namespace Sys2Proof.Machine

/-- step_core of 30 R99: the accepted word is decoded and run; an illegal word completes with ILLEGAL_CMD (60 R195). -/
def coreStep (s : State) : Host.Outcome State Fault Refusal :=
  match decode s.cmd with
  | .instr i => exec i s
  | .illegal _ => finishCommand (.raised .illegalCmd s)

/-- The reset event (70 R220 to R222): every register at its reset value, every init mark cleared, the fault set kept (10
R42). The host's program and names are not the block's (30 R96), and stay (log 8). -/
def resetEvent (s : State) : State :=
  { State.resetWith s.pixcap s.datcap with
    faults := s.faults
    draws := s.draws
    prog := s.prog
    names := s.names
    sched := s.sched }

/-- One agent's turn. The core agent's step is enabled only while BUSY = 1 (30 R99); a turn of an agent that cannot move
changes nothing. -/
def takeTurn (s : State) : Turn → Host.Outcome State Fault Refusal
  | .core => if s.status.busy then coreStep s else .next s
  | .host => hostStep s
  | .reset => .next (resetEvent s)

/-- The next step of the machine (log 3): the turn that sched names; when it names none, the core agent's if BUSY = 1
(70 R230), else the host's. -/
def nextTurn (s : State) : Host.Outcome State Fault Refusal :=
  match s.sched with
  | [] => takeTurn s (if s.status.busy then .core else .host)
  | t :: rest => takeTurn { s with sched := rest } t

/-- A configuration that breaks 00 R5 is refused. -/
def guardedTurn (s : State) : Host.Outcome State Fault Refusal :=
  if Config.capsValid s.pixcap s.datcap then nextTurn s else .refused .invalidConfig

/-- A command word placed for the next step (log 9): accepted as a CMD write is while BUSY = 0 (10 R27), and the core
agent's turn put first. -/
def placeCommand (s : State) (w : Word) : State :=
  { s.acceptCommand w with sched := .core :: s.sched }

end Sys2Proof.Machine
end

