-- ==== Sys2Proof/Machine/Step.lean ====
section
/-! DEFINITION. The step of the machine, and an instruction placed where the next step runs it. -/

namespace Sys2Proof.Machine

/-- One step of one agent (20 R77). -/
def step (s : State) : Host.Outcome State Fault Refusal := guardedTurn s

/-- s with a command word of the opcode table placed so that the next step runs it (log 9). -/
def State.withFetchWord (s : State) (nbits w : Nat) : State := placeCommand s (tableWord nbits w)

end Sys2Proof.Machine
end

