-- ==== Sys2Proof/Safety.lean ====
section
/-! DEFINITION. The terms in which claims about the machine are stated: the invariant, initialised windows, the bits a
carrier and a payload byte hold, the end of a run and what is observed there. -/

namespace Sys2Proof.Machine

/-- Every byte of m[lo .. lo + len) has init mark 1 (10 R40). -/
abbrev Memory.initOn (m : Memory) (lo len : Nat) : Prop := ∀ p < len, (Memory.read m (lo + p)).isSome = true

/-- The LSB of a carrier (20 R69); false where the byte was never written, which no claim uses. -/
def carrierBit (m : Memory) (p : Nat) : Bool :=
  match Memory.read m p with
  | some b => lsb b
  | none => false

/-- Bit d[j][7 - k] of a byte memory, the bit k of byte j in MSB-first order (00 R11); false for an unwritten byte. -/
def payloadBit (m : Memory) (j k : Nat) : Bool :=
  match Memory.read m j with
  | some b => b.getLsbD (7 - k)
  | none => false

/-- Bits 7..1 of every byte, and which bytes are written, are the same in both memories (41 R132). -/
def sameUpperBits (m m' : Memory) : Prop :=
  ∀ a, (Memory.read m' a).map upperBits = (Memory.read m a).map upperBits

/-- 32-bit number v is what the carriers from off spell, MSB first (42 R151). -/
abbrev spells (m : Memory) (off : Nat) (v : Word) : Prop := ∀ i < 32, v.getLsbD (31 - i) = carrierBit m (off + i)

/-- The invariant of the machine: a valid configuration (00 R5), STATUS as 10 R28 says, and both memories in canonical form
with no byte at or above their capacity (20 R71). -/
structure State.Inv (s : State) : Prop where
  caps : Config.capsValid s.pixcap s.datcap = true
  busyClear : s.status.busy = true → s.status.done = false ∧ s.status.err = .ok
  pixWf : s.pix.wf
  datWf : s.dat.wf
  pixBelow : s.pix.below s.pixcap.toNat
  datBelow : s.dat.below s.datcap.toNat

/-- k steps of the machine, stopping at the first fault or refusal. -/
def run (k : Nat) (s : State) : Host.Outcome State Fault Refusal := Host.Core.run Sys2Proof.core k s

/-- An outcome with its next state, if it has one, changed by f: used to say that a command does not read a register. -/
def mapNext (f : State → State) : Host.Outcome State Fault Refusal → Host.Outcome State Fault Refusal
  | .next t => .next (f t)
  | .fault e => .fault e
  | .refused r => .refused r

/-- Two runs end alike: both in a next state, and the two are related by R, or both in the same fault. -/
def endAlike (R : State → State → Prop) : Host.Outcome State Fault Refusal → Host.Outcome State Fault Refusal → Prop
  | .next t, .next u => R t u
  | .fault f, .fault g => f = g
  | _, _ => False

/-- The memories t and u that two runs leave, from m and m', hold the same bytes in [lo, hi), and each keeps its own bytes
elsewhere. -/
def sameWithin (lo hi : Nat) (m m' t u : Memory) : Prop :=
  ∀ a, if lo ≤ a ∧ a < hi then Memory.read u a = Memory.read t a
    else Memory.read t a = Memory.read m a ∧ Memory.read u a = Memory.read m' a

/-- OVR replaced, and nothing else. -/
def State.withOvr (s : State) (b : Bool) : State := { s with status := { s.status with ovr := b } }

/-- The run has ended: the program has ended and BUSY = 0 (70 R232). -/
abbrev State.ended (s : State) : Prop := s.prog = [] ∧ s.status.busy = false

/-- The end state of a run is final if and only if the fault set is empty (70 R232). -/
abbrev State.final (s : State) : Prop := s.ended ∧ s.faults = FaultSet.empty

/-- What a claim observes at the end of a run (70 R232): the CSRs, the initialised bytes, and the bound names. -/
structure Observation where
  csrs  : List Word
  dat   : Memory
  pix   : Memory
  names : List (String × HostValue)
deriving DecidableEq, Repr

/-- The observation of a state (70 R232). -/
def State.observe (s : State) : Observation where
  csrs := [csrValue s .id, csrValue s .pixcap, csrValue s .datcap, csrValue s .cmd, csrValue s .status, csrValue s .bufLen,
    csrValue s .bitOffset, csrValue s .dataLen, csrValue s .lenInLo, csrValue s .lenInHi, csrValue s .lenBytes,
    csrValue s .result]
  dat := s.dat
  pix := s.pix
  names := s.names

end Sys2Proof.Machine
end

