-- ==== Sys2Proof/Certificates/Slice0/Obligations.lean ====
section
/-! DEFINITION. The statements about the machine, taken from the spec's numbered rules. In every docstring, "R<n>" is a rule
of spec/. A next state is written as a record update of the state before, so it says at once what changes and that every
other register, flag, memory and host field stays. -/

open Sys2Proof Sys2Proof.Machine

/-! ## Encoding and dispatch -/

/-- R92: decoding is total; a word is legal if and only if RSV = 0 and 1 <= OP <= 7; it selects the row with its OP, which is
the row whose word it is; every other word completes with ILLEGAL_CMD and has no other effect. -/
def Obligations.DecodingFollowsTheOpcodeMap : Prop :=
  ∀ w : Word,
    ((∃ i, decode w = .instr i) ↔
      w.extractLsb' 4 28 = 0#28 ∧ 1 ≤ (w.extractLsb' 0 4).toNat ∧ (w.extractLsb' 0 4).toNat ≤ 7) ∧
    (∀ i, decode w = .instr i → opCode i = w.extractLsb' 0 4) ∧
    (∀ i, decode w = .instr i ↔ w = encode i) ∧
    (∀ s : State, s.cmd = w → (∀ i, decode w ≠ .instr i) →
      coreStep s = .next { s with status := statusComplete s.status .illegalCmd })

/-- R91: each command's word is the one of the opcode map. -/
def Obligations.OpcodeMapWordsDecode : Prop :=
  decode 0x00000001#32 = .instr .lenToBytes ∧ decode 0x00000002#32 = .instr .lenFromBytes ∧
  decode 0x00000003#32 = .instr .lsbWrite ∧ decode 0x00000004#32 = .instr .lsbReadInt ∧
  decode 0x00000005#32 = .instr .lsbReadBytes ∧ decode 0x00000006#32 = .instr .frameEncode ∧
  decode 0x00000007#32 = .instr .frameDecode

/-- Decoding the word of a well-formed command gives the command back, through the word and through the table's numbering. -/
def Obligations.DecodeOfEncodeIsTheCommand : Prop :=
  ∀ i : Instr, i.wellFormed = true →
    decode (encode i) = .instr i ∧ decodeTableWord 32 (encode i).toNat = some i

/-- A step runs the decoded command: when BUSY = 1, it is the core agent's turn (or nobody's is named, log 3) and CMD decodes
to i, step is exec of i; around exec it only takes the turn off sched. A word placed by withFetchWord (log 9) runs so. -/
def Obligations.StepRunsTheDecodedCommand : Prop :=
  (∀ (s : State) (i : Instr), Config.capsValid s.pixcap s.datcap = true → s.status.busy = true →
    (s.sched = [] ∨ s.sched.head? = some .core) → decode s.cmd = .instr i →
    step s = exec i { s with sched := s.sched.tail }) ∧
  (∀ (s : State) (i : Instr), Config.capsValid s.pixcap s.datcap = true →
    step (s.withFetchWord 32 (encode i).toNat) = exec i { s with cmd := encode i, status := statusAccept s.status })

/-- R195: every illegal accepted word completes with ILLEGAL_CMD; nothing but STATUS is written, and no register or memory is
read except CMD. The word is spelt out: RSV /= 0, or OP = 0x0, or OP in 0x8 .. 0xF. -/
def Obligations.IllegalWordCompletesWithItsCode : Prop :=
  ∀ s : State, (s.cmd.extractLsb' 4 28 ≠ 0#28 ∨ s.cmd.extractLsb' 0 4 = 0x0#4 ∨ 8 ≤ (s.cmd.extractLsb' 0 4).toNat) →
    coreStep s = .next { s with status := { busy := false, done := true, err := .illegalCmd, ovr := s.status.ovr } } ∧
    errNumber .illegalCmd = 4#4

/-- R99: the core agent's step is enabled if and only if BUSY = 1; when it has a next state, BUSY = 0, DONE = 1 and OVR is as
before; otherwise it met the model fault UNINIT_READ. It is never refused. That a turn of the core agent while its step is not
enabled is an idle turn, which changes nothing, is the model's choice (log 3). -/
def Obligations.CoreStepCompletesOrMeetsUninitRead : Prop :=
  (∀ s : State, s.status.busy = false → takeTurn s .core = .next s) ∧
  (∀ s : State, s.status.busy = true → takeTurn s .core = coreStep s) ∧
  (∀ s : State,
    (∃ t, coreStep s = .next t ∧ t.status.busy = false ∧ t.status.done = true ∧ t.status.ovr = s.status.ovr) ∨
    coreStep s = .fault .uninitRead)

/-- R191: the numbers of the codes, that 6 to 15 are never produced, and which command raises which code. -/
def Obligations.ErrorCodesAreThoseOfTheTable : Prop :=
  (errNumber .ok = 0#4 ∧ errNumber .range = 1#4 ∧ errNumber .capacity = 2#4 ∧ errNumber .outOfBounds = 3#4 ∧
    errNumber .illegalCmd = 4#4 ∧ errNumber .badConfig = 5#4) ∧
  (∀ e, (errNumber e).toNat ≤ 5) ∧
  (∀ (i : Instr) (s t : State), exec i s = .next t →
    (t.status.err = .range → i = .lenToBytes) ∧
    (t.status.err = .capacity → i = .lsbWrite ∨ i = .frameEncode) ∧
    (t.status.err = .outOfBounds → i = .lsbReadInt ∨ i = .lsbReadBytes ∨ i = .frameDecode) ∧
    t.status.err ≠ .illegalCmd ∧
    (t.status.err = .badConfig → i = .lsbWrite ∨ i = .lsbReadInt ∨ i = .lsbReadBytes ∨ i = .frameEncode ∨ i = .frameDecode))

/-! ## Frames -/

/-- What no command writes: the operand registers (R30 to R33), the capacities, CMD, OVR, the fault set and the host's fields;
LEN_BYTES but by LEN_TO_BYTES, RESULT but by LEN_FROM_BYTES, LSB_READ_INT and FRAME_DECODE (R34, R35); the draw counter
(log 4) but by FRAME_ENCODE. -/
def Obligations.CommandsLeaveOtherRegisters : Prop :=
  ∀ (i : Instr) (s t : State), exec i s = .next t →
    t.pixcap = s.pixcap ∧ t.datcap = s.datcap ∧ t.cmd = s.cmd ∧ t.bufLen = s.bufLen ∧ t.bitOffset = s.bitOffset ∧
    t.dataLen = s.dataLen ∧ t.lenInLo = s.lenInLo ∧ t.lenInHi = s.lenInHi ∧ t.status.ovr = s.status.ovr ∧
    t.faults = s.faults ∧ t.prog = s.prog ∧ t.names = s.names ∧ t.sched = s.sched ∧
    (i ≠ .lenToBytes → t.lenBytes = s.lenBytes) ∧
    (i ≠ .lenFromBytes → i ≠ .lsbReadInt → i ≠ .frameDecode → t.result = s.result) ∧
    (i ≠ .frameEncode → t.draws = s.draws)

/-- Every byte a command does not store to: PIX but by LSB_WRITE in [BIT_OFFSET, BIT_OFFSET + 8 DATA_LEN) and FRAME_ENCODE in
[0, 32 + 8 DATA_LEN); DAT but by LSB_READ_BYTES in [0, DATA_LEN) and FRAME_DECODE in [0, L), L the number that carriers 0 to
31 spell (R60, R93). -/
def Obligations.CommandsLeaveOtherBytes : Prop :=
  ∀ (i : Instr) (s t : State), exec i s = .next t →
    (i ≠ .lsbWrite → i ≠ .frameEncode → ∀ a, Memory.read t.pix a = Memory.read s.pix a) ∧
    (i ≠ .lsbReadBytes → i ≠ .frameDecode → ∀ a, Memory.read t.dat a = Memory.read s.dat a) ∧
    (i = .lsbWrite → ∀ a, a < s.bitOffset.toNat ∨ s.bitOffset.toNat + 8 * s.dataLen.toNat ≤ a →
      Memory.read t.pix a = Memory.read s.pix a) ∧
    (i = .frameEncode → ∀ a, 32 + 8 * s.dataLen.toNat ≤ a → Memory.read t.pix a = Memory.read s.pix a) ∧
    (i = .lsbReadBytes → ∀ a, s.dataLen.toNat ≤ a → Memory.read t.dat a = Memory.read s.dat a) ∧
    (i = .frameDecode → ∀ L : Word, spells s.pix 0 L → ∀ a, L.toNat ≤ a → Memory.read t.dat a = Memory.read s.dat a)

/-- R132 over all commands: no command changes bits 7..1 of a PIX byte, nor which PIX bytes are written. -/
def Obligations.NoCommandChangesUpperBits : Prop :=
  ∀ (i : Instr) (s t : State), exec i s = .next t → sameUpperBits s.pix t.pix

/-- A command that ends with an error has written nothing but STATUS (R198), with the one exception of FRAME_ENCODE failing
at the payload stage, which leaves the LSBs of PIX[0 .. 32) open (R171, log 4) and every other bit of PIX as it was. -/
def Obligations.ErrorsArePrecise : Prop :=
  ∀ (i : Instr) (s t : State) (e : ErrCode), exec i s = .next t → t.status.err = e → e ≠ .ok →
    t = { s with status := statusComplete s.status e } ∨
    (i = .frameEncode ∧ e = .capacity ∧ 32 ≤ s.bufLen.toNat ∧ s.bufLen.toNat < 32 + 8 * s.dataLen.toNat ∧
      ∃ m, t = { s with pix := m, draws := s.draws + 1, status := statusComplete s.status .capacity } ∧
        sameUpperBits s.pix m ∧ ∀ a, 32 ≤ a → Memory.read m a = Memory.read s.pix a)

/-- The registers that R93 does not list for a command do not matter to it: exec with any values of them does the same and
leaves those values; for LEN_TO_BYTES and LEN_FROM_BYTES, which have no BUF_LEN check, PIXCAP is one of them. Nor do CMD,
DATCAP, the fault set and STATUS matter to any command, of which OVR alone is then kept (R99). Its memory column is
Obligations.CommandsReadOnlyTheirBytes. -/
def Obligations.CommandsReadOnlyTheirRegisters : Prop :=
  (∀ (i : Instr) (s : State) (w dc : Word) (fs : FaultSet) (st : Status),
    exec i { s with cmd := w, datcap := dc, faults := fs, status := st } =
      mapNext (fun t => { t with cmd := w, datcap := dc, faults := fs, status := { t.status with ovr := st.ovr } })
        (exec i s)) ∧
  (∀ (s : State) (p b o d r : Word),
    exec .lenToBytes { s with pixcap := p, bufLen := b, bitOffset := o, dataLen := d, result := r } =
      mapNext (fun t => { t with pixcap := p, bufLen := b, bitOffset := o, dataLen := d, result := r })
        (exec .lenToBytes s)) ∧
  (∀ (s : State) (p b o d l h : Word),
    exec .lenFromBytes { s with pixcap := p, bufLen := b, bitOffset := o, dataLen := d, lenInLo := l, lenInHi := h } =
      mapNext (fun t => { t with pixcap := p, bufLen := b, bitOffset := o, dataLen := d, lenInLo := l, lenInHi := h })
        (exec .lenFromBytes s)) ∧
  (∀ (s : State) (l h y r : Word),
    exec .lsbWrite { s with lenInLo := l, lenInHi := h, lenBytes := y, result := r } =
      mapNext (fun t => { t with lenInLo := l, lenInHi := h, lenBytes := y, result := r }) (exec .lsbWrite s)) ∧
  (∀ (s : State) (d l h y : Word),
    exec .lsbReadInt { s with dataLen := d, lenInLo := l, lenInHi := h, lenBytes := y } =
      mapNext (fun t => { t with dataLen := d, lenInLo := l, lenInHi := h, lenBytes := y }) (exec .lsbReadInt s)) ∧
  (∀ (s : State) (l h y r : Word),
    exec .lsbReadBytes { s with lenInLo := l, lenInHi := h, lenBytes := y, result := r } =
      mapNext (fun t => { t with lenInLo := l, lenInHi := h, lenBytes := y, result := r }) (exec .lsbReadBytes s)) ∧
  (∀ (s : State) (o l h y r : Word),
    exec .frameEncode { s with bitOffset := o, lenInLo := l, lenInHi := h, lenBytes := y, result := r } =
      mapNext (fun t => { t with bitOffset := o, lenInLo := l, lenInHi := h, lenBytes := y, result := r })
        (exec .frameEncode s)) ∧
  (∀ (s : State) (o d l h y : Word),
    exec .frameDecode { s with bitOffset := o, dataLen := d, lenInLo := l, lenInHi := h, lenBytes := y } =
      mapNext (fun t => { t with bitOffset := o, dataLen := d, lenInLo := l, lenInHi := h, lenBytes := y })
        (exec .frameDecode s))

/-! ## LengthCodec -/

/-- R110: ToBytes32 raises RangeError exactly outside 0 .. 2^32 - 1, and else gives the four bytes n[31:24] .. n[7:0]. -/
def Obligations.ToBytes32GivesBigEndianBytes : Prop :=
  ∀ n : Int,
    ((n < 0 ∨ 2 ^ 32 - 1 < n) → toBytes32 n = .error .range) ∧
    (0 ≤ n → n ≤ 2 ^ 32 - 1 →
      toBytes32 n = .ok [BitVec.ofInt 8 (n / 2 ^ 24), BitVec.ofInt 8 (n / 2 ^ 16), BitVec.ofInt 8 (n / 2 ^ 8), BitVec.ofInt 8 n])

/-- R112: LEN_TO_BYTES. It succeeds exactly when LEN_IN_HI = 0, which is when 0 <= n <= 2^32 - 1; LEN_BYTES is then LEN_IN_LO,
the big-endian bytes of n; else RANGE, with LEN_BYTES unchanged. BUF_LEN does not matter. -/
def Obligations.LenToBytesStoresTheLengthOrRange : Prop :=
  ∀ s : State,
    (s.lenInHi = 0#32 →
      exec .lenToBytes s = .next { s with lenBytes := s.lenInLo, status := statusComplete s.status .ok } ∧
      (s.lenInLo.toNat : Int) = (s.lenInHi ++ s.lenInLo : BitVec 64).toInt) ∧
    (s.lenInHi ≠ 0#32 → exec .lenToBytes s = .next { s with status := statusComplete s.status .range }) ∧
    (s.lenInHi ≠ 0#32 ↔
      (s.lenInHi ++ s.lenInLo : BitVec 64).toInt < 0 ∨ 2 ^ 32 - 1 < (s.lenInHi ++ s.lenInLo : BitVec 64).toInt)

/-- R113: LEN_FROM_BYTES always succeeds; RESULT is LEN_BYTES read as the unsigned number B0*2^24 + B1*2^16 + B2*2^8 + B3. -/
def Obligations.LenFromBytesReadsTheLength : Prop :=
  ∀ s : State,
    exec .lenFromBytes s = .next { s with result := s.lenBytes, status := statusComplete s.status .ok } ∧
    s.lenBytes.toNat = (s.lenBytes.extractLsb' 24 8).toNat * 2 ^ 24 + (s.lenBytes.extractLsb' 16 8).toNat * 2 ^ 16 +
      (s.lenBytes.extractLsb' 8 8).toNat * 2 ^ 8 + (s.lenBytes.extractLsb' 0 8).toNat

/-- R114: the round trip, for the two functions and for the two commands run one after the other. -/
def Obligations.LengthCodecRoundTrip : Prop :=
  (∀ n : Nat, n ≤ 2 ^ 32 - 1 →
    ∃ b0 b1 b2 b3, toBytes32 (n : Int) = .ok [b0, b1, b2, b3] ∧ fromBytes32 b0 b1 b2 b3 = n) ∧
  (∀ s : State, s.lenInHi = 0#32 →
    ∃ t u, exec .lenToBytes s = .next t ∧ t.status.err = .ok ∧
      exec .lenFromBytes t = .next u ∧ u.status.err = .ok ∧ u.result = s.lenInLo)

/-! ## LsbEncoder -/

/-- R132: a successful LsbWrite(off, n, d) changes only bit 0 of PIX[off .. off + 8n): bits 7..1 and every other PIX byte stay,
and no DAT byte and no register changes. -/
def Obligations.LsbWriteIsNonDestructive : Prop :=
  ∀ (s t : State) (off n : Nat) (d : Nat → Option Byte), lsbWrite s off n d = .done t →
    t = { s with pix := t.pix } ∧ sameUpperBits s.pix t.pix ∧
    ∀ a, a < off ∨ off + 8 * n ≤ a → Memory.read t.pix a = Memory.read s.pix a

/-- R133: a write of n bytes fits if and only if off + 8n <= BUF_LEN, and after a successful one
Lsb(PIX[off + 8j + k]) = d(j)[7 - k] for every j < n and k <= 7. -/
def Obligations.LsbWriteStoresTheBits : Prop :=
  ∀ (s : State) (off n : Nat) (d : Nat → Option Byte),
    (lsbWrite s off n d = .raised .capacity s ↔ ¬off + 8 * n ≤ s.bufLen.toNat) ∧
    (∀ t, lsbWrite s off n d = .done t → off + 8 * n ≤ s.bufLen.toNat ∧
      ∀ j < n, ∀ k ≤ 7, ∃ x b, d j = some x ∧ Memory.read t.pix (off + 8 * j + k) = some b ∧ b.getLsbD 0 = x.getLsbD (7 - k))

/-- LSB_WRITE completes with code 0 when BUF_LEN <= PIX_CAP, its window fits and what it reads is initialised (R131): each
carrier of the window then holds its payload bit, MSB first, and all else stays. DATA_LEN = 0 and an exact fit are included. -/
def Obligations.LsbWriteCompletes : Prop :=
  ∀ s : State, s.bufLen.toNat ≤ s.pixcap.toNat → s.bitOffset.toNat + 8 * s.dataLen.toNat ≤ s.bufLen.toNat →
    s.dat.initOn 0 s.dataLen.toNat → s.pix.initOn s.bitOffset.toNat (8 * s.dataLen.toNat) →
    ∃ m, exec .lsbWrite s = .next { s with pix := m, status := statusComplete s.status .ok } ∧
      (∀ j < s.dataLen.toNat, ∀ k < 8, carrierBit m (s.bitOffset.toNat + 8 * j + k) = payloadBit s.dat j k) ∧
      sameUpperBits s.pix m ∧
      ∀ a, a < s.bitOffset.toNat ∨ s.bitOffset.toNat + 8 * s.dataLen.toNat ≤ a → Memory.read m a = Memory.read s.pix a

/-! ## LsbDecoder -/

/-- LSB_READ_INT completes with code 0 when BUF_LEN <= PIX_CAP, BIT_OFFSET + 32 <= BUF_LEN and its window is initialised
(R151): RESULT is the number the 32 carriers spell, MSB first. -/
def Obligations.LsbReadIntCompletes : Prop :=
  ∀ s : State, s.bufLen.toNat ≤ s.pixcap.toNat → s.bitOffset.toNat + 32 ≤ s.bufLen.toNat →
    s.pix.initOn s.bitOffset.toNat 32 →
    ∃ v : Word, exec .lsbReadInt s = .next { s with result := v, status := statusComplete s.status .ok } ∧
      ∀ i < 32, v.getLsbD (31 - i) = carrierBit s.pix (s.bitOffset.toNat + i)

/-- LSB_READ_BYTES completes with code 0 when BUF_LEN <= PIX_CAP, its window fits and is initialised (R152): each DAT byte
j < DATA_LEN is assembled MSB first, and no DAT byte at or above DATA_LEN is written. -/
def Obligations.LsbReadBytesCompletes : Prop :=
  ∀ s : State, s.bufLen.toNat ≤ s.pixcap.toNat → s.bitOffset.toNat + 8 * s.dataLen.toNat ≤ s.bufLen.toNat →
    s.pix.initOn s.bitOffset.toNat (8 * s.dataLen.toNat) →
    ∃ m, exec .lsbReadBytes s = .next { s with dat := m, status := statusComplete s.status .ok } ∧
      (∀ j < s.dataLen.toNat, ∃ x, Memory.read m j = some x ∧
        ∀ k < 8, x.getLsbD (7 - k) = carrierBit s.pix (s.bitOffset.toNat + 8 * j + k)) ∧
      ∀ a, s.dataLen.toNat ≤ a → Memory.read m a = Memory.read s.dat a

/-- R153: no read command changes PIX, BUF_LEN, BIT_OFFSET or DATA_LEN; and LSB_READ_BYTES undoes LsbWrite: after a successful
LsbWrite(off, n, d), in any state with the same PIX and BUF_LEN <= PIX_CAP, with BIT_OFFSET = off and DATA_LEN = n, it succeeds
and leaves DAT[j] = d(j) for every j < n. -/
def Obligations.LsbReadBytesUndoesLsbWrite : Prop :=
  (∀ (i : Instr) (s t : State), i = .lsbReadInt ∨ i = .lsbReadBytes → exec i s = .next t →
    t.pix = s.pix ∧ t.bufLen = s.bufLen ∧ t.bitOffset = s.bitOffset ∧ t.dataLen = s.dataLen) ∧
  (∀ (s t u : State) (off n : Nat) (d : Nat → Option Byte), lsbWrite s off n d = .done t →
    u.pix = t.pix → u.bufLen = s.bufLen → u.bufLen.toNat ≤ u.pixcap.toNat → u.bitOffset.toNat = off → u.dataLen.toNat = n →
    ∃ v, exec .lsbReadBytes u = .next v ∧ v.status.err = .ok ∧ ∀ j < n, Memory.read v.dat j = d j)

/-! ## Error checks of the commands that access PIX -/

/-- R196: a command that accesses PIX (OP 3 .. 7) with BUF_LEN > PIX_CAP raises BAD_CONFIG before any other check, and nothing
is written; no other command raises it. -/
def Obligations.BadConfigComesFirst : Prop :=
  (∀ (i : Instr) (s : State), i = .lsbWrite ∨ i = .lsbReadInt ∨ i = .lsbReadBytes ∨ i = .frameEncode ∨ i = .frameDecode →
    s.pixcap.toNat < s.bufLen.toNat → exec i s = .next { s with status := statusComplete s.status .badConfig }) ∧
  (∀ (i : Instr) (s t : State), exec i s = .next t → t.status.err = .badConfig →
    (i = .lsbWrite ∨ i = .lsbReadInt ∨ i = .lsbReadBytes ∨ i = .frameEncode ∨ i = .frameDecode) ∧
    s.pixcap.toNat < s.bufLen.toNat)

/-- R193: CAPACITY, for LSB_WRITE and for the prefix stage of FRAME_ENCODE. LSB_WRITE raises it when BIT_OFFSET + 8 DATA_LEN > BUF_LEN, and FRAME_ENCODE at the prefix write when
BUF_LEN < 32, with nothing written; the sum is exact, so it never wraps. The payload stage of FRAME_ENCODE is
Obligations.FailedFrameEncodeLeavesFreePrefixBits. -/
def Obligations.LsbWriteAndPrefixCapacityErrorsWriteNothing : Prop :=
  ∀ s : State, s.bufLen.toNat ≤ s.pixcap.toNat →
    (s.bufLen.toNat < s.bitOffset.toNat + 8 * s.dataLen.toNat →
      exec .lsbWrite s = .next { s with status := statusComplete s.status .capacity }) ∧
    (s.bufLen.toNat < 32 → exec .frameEncode s = .next { s with status := statusComplete s.status .capacity })

/-- R194: OUT_OF_BOUNDS is raised by LsbReadBits when off + count > BUF_LEN, with nothing written: by LSB_READ_INT, by
LSB_READ_BYTES, and by FRAME_DECODE at the prefix and, for the decoded L, at the payload, where no carrier at or above 32 has
been read (they need not be initialised). -/
def Obligations.OutOfBoundsErrorsWriteNothing : Prop :=
  (∀ (s : State) (off count : Nat) (k : List Bool → CmdResult), s.bufLen.toNat < off + count →
    lsbReadBits s off count k = .raised .outOfBounds s) ∧
  (∀ s : State, s.bufLen.toNat ≤ s.pixcap.toNat →
    (s.bufLen.toNat < s.bitOffset.toNat + 32 →
      exec .lsbReadInt s = .next { s with status := statusComplete s.status .outOfBounds }) ∧
    (s.bufLen.toNat < s.bitOffset.toNat + 8 * s.dataLen.toNat →
      exec .lsbReadBytes s = .next { s with status := statusComplete s.status .outOfBounds }) ∧
    (s.bufLen.toNat < 32 → exec .frameDecode s = .next { s with status := statusComplete s.status .outOfBounds }) ∧
    (∀ L : Word, 32 ≤ s.bufLen.toNat → s.pix.initOn 0 32 → spells s.pix 0 L → s.bufLen.toNat < 32 + 8 * L.toNat →
      exec .frameDecode s = .next { s with status := statusComplete s.status .outOfBounds }))

/-- UNINIT_READ takes the place of a completion exactly when the checks before the read have passed and a byte read was never
written (R70, R197): for the framer commands the prefix carriers are read before the payload check. -/
def Obligations.UninitialisedBytesFault : Prop :=
  ∀ s : State,
    (exec .lsbWrite s = .fault .uninitRead ↔
      s.bufLen.toNat ≤ s.pixcap.toNat ∧ s.bitOffset.toNat + 8 * s.dataLen.toNat ≤ s.bufLen.toNat ∧
      ¬(s.dat.initOn 0 s.dataLen.toNat ∧ s.pix.initOn s.bitOffset.toNat (8 * s.dataLen.toNat))) ∧
    (exec .lsbReadInt s = .fault .uninitRead ↔
      s.bufLen.toNat ≤ s.pixcap.toNat ∧ s.bitOffset.toNat + 32 ≤ s.bufLen.toNat ∧ ¬s.pix.initOn s.bitOffset.toNat 32) ∧
    (exec .lsbReadBytes s = .fault .uninitRead ↔
      s.bufLen.toNat ≤ s.pixcap.toNat ∧ s.bitOffset.toNat + 8 * s.dataLen.toNat ≤ s.bufLen.toNat ∧
      ¬s.pix.initOn s.bitOffset.toNat (8 * s.dataLen.toNat)) ∧
    (exec .frameEncode s = .fault .uninitRead ↔
      s.bufLen.toNat ≤ s.pixcap.toNat ∧ 32 ≤ s.bufLen.toNat ∧
      (¬s.pix.initOn 0 32 ∨ 32 + 8 * s.dataLen.toNat ≤ s.bufLen.toNat ∧
        ¬(s.dat.initOn 0 s.dataLen.toNat ∧ s.pix.initOn 32 (8 * s.dataLen.toNat)))) ∧
    (exec .frameDecode s = .fault .uninitRead ↔
      s.bufLen.toNat ≤ s.pixcap.toNat ∧ 32 ≤ s.bufLen.toNat ∧
      (¬s.pix.initOn 0 32 ∨ ∃ L : Word, spells s.pix 0 L ∧ 32 + 8 * L.toNat ≤ s.bufLen.toNat ∧
        ¬s.pix.initOn 32 (8 * L.toNat)))

/-! ## PayloadFramer -/

/-- FRAME_ENCODE completes with code 0 when BUF_LEN <= PIX_CAP, 32 + 8 DATA_LEN <= BUF_LEN and what it reads is initialised
(R170): carriers 0 to 31 spell DATA_LEN, the payload bits follow from carrier 32, and all else stays. -/
def Obligations.FrameEncodeCompletes : Prop :=
  ∀ s : State, s.bufLen.toNat ≤ s.pixcap.toNat → 32 + 8 * s.dataLen.toNat ≤ s.bufLen.toNat →
    s.dat.initOn 0 s.dataLen.toNat → s.pix.initOn 0 (32 + 8 * s.dataLen.toNat) →
    ∃ m, exec .frameEncode s = .next { s with pix := m, status := statusComplete s.status .ok } ∧
      (∀ i < 32, carrierBit m i = s.dataLen.getLsbD (31 - i)) ∧
      (∀ j < s.dataLen.toNat, ∀ k < 8, carrierBit m (32 + 8 * j + k) = payloadBit s.dat j k) ∧
      sameUpperBits s.pix m ∧ ∀ a, 32 + 8 * s.dataLen.toNat ≤ a → Memory.read m a = Memory.read s.pix a

/-- R171: FRAME_ENCODE failing at the payload write (BUF_LEN >= 32 and 32 + 8L > BUF_LEN) completes with CAPACITY; bits 7..1 of
every PIX byte, all of PIX[32 ..) and DAT are unchanged, and each LSB of PIX[0 .. 32) is a free draw (log 4). After a
prefix-stage failure (BUF_LEN < 32) PIX is unchanged. -/
def Obligations.FailedFrameEncodeLeavesFreePrefixBits : Prop :=
  ∀ s : State, s.bufLen.toNat ≤ s.pixcap.toNat →
    (32 ≤ s.bufLen.toNat → s.bufLen.toNat < 32 + 8 * s.dataLen.toNat → s.pix.initOn 0 32 →
      ∃ m, exec .frameEncode s =
          .next { s with pix := m, draws := s.draws + 1, status := statusComplete s.status .capacity } ∧
        sameUpperBits s.pix m ∧ (∀ a, 32 ≤ a → Memory.read m a = Memory.read s.pix a) ∧
        ∀ i < 32, carrierBit m i = (Config.freePrefix s.draws).getLsbD (31 - i)) ∧
    (s.bufLen.toNat < 32 → ∃ t, exec .frameEncode s = .next t ∧ t.pix = s.pix)

/-- FRAME_DECODE completes with code 0 when BUF_LEN <= PIX_CAP, carriers 0 to 31 spell L, 32 + 8L <= BUF_LEN and what it reads
is initialised (R172): RESULT = L, each DAT byte j < L is assembled MSB first, and no other DAT byte is written. -/
def Obligations.FrameDecodeCompletes : Prop :=
  ∀ (s : State) (L : Word), s.bufLen.toNat ≤ s.pixcap.toNat → spells s.pix 0 L → 32 + 8 * L.toNat ≤ s.bufLen.toNat →
    s.pix.initOn 0 (32 + 8 * L.toNat) →
    ∃ m, exec .frameDecode s = .next { s with dat := m, result := L, status := statusComplete s.status .ok } ∧
      (∀ j < L.toNat, ∃ x, Memory.read m j = some x ∧ ∀ k < 8, x.getLsbD (7 - k) = carrierBit s.pix (32 + 8 * j + k)) ∧
      ∀ a, L.toNat ≤ a → Memory.read m a = Memory.read s.dat a

/-- R173: the framer's laws. Round trip: FRAME_ENCODE and then FRAME_DECODE in any state with the same PIX, BUF_LEN and
PIXCAP (DAT and everything else may have changed) give RESULT = L and DAT[0 .. L) = the payload. Non-destruction. Empty
payload. Capacity boundary. -/
def Obligations.FramerRoundTrip : Prop :=
  (∀ s : State, s.bufLen.toNat ≤ s.pixcap.toNat → s.pix.initOn 0 s.bufLen.toNat →
    32 + 8 * s.dataLen.toNat ≤ s.bufLen.toNat → s.dat.initOn 0 s.dataLen.toNat →
    ∃ t, exec .frameEncode s = .next t ∧ t.status.err = .ok ∧
      ∀ u : State, u.pix = t.pix → u.bufLen = t.bufLen → u.pixcap = t.pixcap →
        ∃ v, exec .frameDecode u = .next v ∧ v.status.err = .ok ∧ v.result = s.dataLen ∧
          ∀ j < s.dataLen.toNat, Memory.read v.dat j = Memory.read s.dat j) ∧
  (∀ s t : State, exec .frameEncode s = .next t → t.status.err = .ok →
    sameUpperBits s.pix t.pix ∧ ∀ a, 32 + 8 * s.dataLen.toNat ≤ a → Memory.read t.pix a = Memory.read s.pix a) ∧
  (∀ s : State, s.bufLen.toNat ≤ s.pixcap.toNat → 32 ≤ s.bufLen.toNat → s.pix.initOn 0 32 → s.dataLen = 0#32 →
    ∃ t, exec .frameEncode s = .next t ∧ t.status.err = .ok ∧ (∀ i < 32, carrierBit t.pix i = false) ∧
      ∃ v, exec .frameDecode t = .next v ∧ v.status.err = .ok ∧ v.result = 0#32 ∧ v.dat = t.dat) ∧
  (∀ s : State, s.bufLen.toNat ≤ s.pixcap.toNat → s.pix.initOn 0 s.bufLen.toNat → s.dat.initOn 0 s.dataLen.toNat →
    (s.bufLen.toNat = 32 + 8 * s.dataLen.toNat → ∃ t, exec .frameEncode s = .next t ∧ t.status.err = .ok) ∧
    (s.bufLen.toNat = 32 + 8 * s.dataLen.toNat - 1 → ∃ t, exec .frameEncode s = .next t ∧ t.status.err = .capacity))

/-- R174: a 36-byte buffer whose first 32 LSBs spell 1000 makes FRAME_DECODE complete with OUT_OF_BOUNDS, DAT and RESULT
unchanged; it reads only PIX[0 .. 32), since no other byte need be initialised. -/
def Obligations.CorruptedBufferIsOutOfBounds : Prop :=
  ∀ s : State, s.bufLen = 36#32 → 36 ≤ s.pixcap.toNat → s.pix.initOn 0 32 →
    (∀ i < 32, carrierBit s.pix i = decide (i = 22 ∨ i = 23 ∨ i = 24 ∨ i = 25 ∨ i = 26 ∨ i = 28)) →
    exec .frameDecode s = .next { s with status := statusComplete s.status .outOfBounds }

/-! ## The whole machine -/

/-- Every step keeps the invariant: a valid configuration (R5); BUSY = 1 never with DONE = 1 nor with an ERR (R28); PIX and DAT
in canonical form with no byte at or above PIX_CAP and DAT_CAP (R71). -/
def Obligations.StepKeepsTheInvariant : Prop :=
  ∀ s t : State, s.Inv → step s = .next t → t.Inv

/-- The invariant holds right after reset, for every valid pair of capacities, and so for State.reset (log 1). -/
def Obligations.ResetMeetsTheInvariant : Prop :=
  (∀ p d : Word, p.toNat / 8 ≤ d.toNat → (State.resetWith p d).Inv) ∧ State.reset.Inv

/-- No command reads or writes PIX at or above BUF_LEN (R71): run on two states that differ only there, a command ends the same
way, the states after it agree on all else, and each keeps its own bytes there. -/
def Obligations.PixBeyondBufLenIsIsolated : Prop :=
  ∀ (i : Instr) (s : State) (m : Memory), (∀ a < s.bufLen.toNat, Memory.read m a = Memory.read s.pix a) →
    match exec i s, exec i { s with pix := m } with
    | .next t, .next u =>
      u = { t with pix := u.pix } ∧ (∀ a < s.bufLen.toNat, Memory.read u.pix a = Memory.read t.pix a) ∧
        ∀ a, s.bufLen.toNat ≤ a → Memory.read t.pix a = Memory.read s.pix a ∧ Memory.read u.pix a = Memory.read m a
    | .fault f, .fault g => f = g
    | _, _ => False

/-- No command reads or writes DAT at or above DAT_CAP (R71), given the constraint on the capacities (R5). -/
def Obligations.DatBeyondCapacityIsIsolated : Prop :=
  ∀ (i : Instr) (s : State) (m : Memory), s.pixcap.toNat / 8 ≤ s.datcap.toNat →
    (∀ a < s.datcap.toNat, Memory.read m a = Memory.read s.dat a) →
    match exec i s, exec i { s with dat := m } with
    | .next t, .next u =>
      u = { t with dat := u.dat } ∧ (∀ a < s.datcap.toNat, Memory.read u.dat a = Memory.read t.dat a) ∧
        ∀ a, s.datcap.toNat ≤ a → Memory.read t.dat a = Memory.read s.dat a ∧ Memory.read u.dat a = Memory.read m a
    | .fault f, .fault g => f = g
    | _, _ => False

/-- A step is refused exactly for a configuration that breaks the constraint of R5, and under that name. -/
def Obligations.OnlyAnInvalidConfigurationIsRefused : Prop :=
  ∀ s : State,
    (¬s.pixcap.toNat / 8 ≤ s.datcap.toNat → step s = .refused .invalidConfig) ∧
    (∀ r, step s = .refused r → ¬s.pixcap.toNat / 8 ≤ s.datcap.toNat)

/-- R42: the model fault set starts empty, a step that records a fault adds it, and nothing removes one, not even reset. -/
def Obligations.FaultsAreNeverRemoved : Prop :=
  (∀ p d : Word, (State.resetWith p d).faults = ⟨false, false, false⟩) ∧
  (∀ s t : State, step s = .next t → t.faults = s.faults) ∧
  (∀ s : State, (resetEvent s).faults = s.faults) ∧
  (∀ s : State,
    (step s = .fault .hostRace → faultsAfter s (step s) = { s.faults with hostRace := true }) ∧
    (step s = .fault .uninitRead → faultsAfter s (step s) = { s.faults with uninitRead := true }) ∧
    (step s = .fault .hostBusError → faultsAfter s (step s) = { s.faults with hostBusError := true }))

/-- RESULT changes in a step only by a reset, or by the completion with code 0 of LEN_FROM_BYTES, LSB_READ_INT or FRAME_DECODE
(R35): no host write changes it. -/
def Obligations.ResultIsWrittenOnlyOnSuccess : Prop :=
  ∀ s t : State, step s = .next t →
    t.result = s.result ∨ (s.sched.head? = some .reset ∧ t.result = 0#32) ∨
    (s.status.busy = true ∧ t.status.done = true ∧ t.status.err = .ok ∧
      (decode s.cmd = .instr .lenFromBytes ∨ decode s.cmd = .instr .lsbReadInt ∨ decode s.cmd = .instr .frameDecode))

/-- BUSY becomes 1 only by a host write of CMD, which stores its word there (R27, R41). -/
def Obligations.BusyComesOnlyFromACommandWrite : Prop :=
  ∀ s t : State, step s = .next t → s.status.busy = false → t.status.busy = true →
    ∃ w rest, s.prog = .write .csr 0x0C 4 w :: rest ∧ t.cmd = w

/-- While a command stays pending, its word and operands do not change, nor do the memories (R37, R41, R81): whatever step is
taken, only OVR, the host's own fields and the turns may. -/
def Obligations.PendingCommandKeepsItsOperands : Prop :=
  ∀ s t : State, step s = .next t → s.status.busy = true → t.status.busy = true →
    t = { s with status := t.status, prog := t.prog, names := t.names, sched := t.sched } ∧
    t.status.done = s.status.done ∧ t.status.err = s.status.err

/-- R201: OVR is set when the host writes any CSR while BUSY = 1, and only then; it is cleared only by a write of 1 to its bit of
STATUS or by reset; it never affects a command. -/
def Obligations.OverrunFlagRule : Prop :=
  (∀ (s : State) (off : Nat) (v : Word), s.status.busy = true → (csrWrite s off v).status.ovr = true) ∧
  (∀ s t : State, step s = .next t → s.status.ovr = false → t.status.ovr = true →
    s.status.busy = true ∧ ∃ off v rest, s.prog = .write .csr off 4 v :: rest) ∧
  (∀ s t : State, step s = .next t → s.status.ovr = true → t.status.ovr = false →
    s.sched.head? = some .reset ∨
    (s.status.busy = false ∧ ∃ v rest, s.prog = .write .csr 0x10 4 v :: rest ∧ v.getLsbD 8 = true)) ∧
  (∀ (i : Instr) (s : State) (b : Bool), exec i (s.withOvr b) = mapNext (fun t => t.withOvr b) (exec i s))

/-- A pending command ends within as many steps as turns are named plus one (R230): the run reaches BUSY = 0, by completion or
by a reset, or meets a model fault, the host's own faults included. With no reset among the turns, BUSY = 0 means that the
command completed: DONE = 1 and CMD still holds its word. With no turn but the core agent's, the very next step completes it
or is UNINIT_READ. The model's schedule is finite and falls back to the core agent (log 3), which is the fairness the rule
assumes. -/
def Obligations.PendingCommandEnds : Prop :=
  ∀ s : State, Config.capsValid s.pixcap s.datcap = true → s.status.busy = true →
    (∃ k ≤ s.sched.length + 1,
      match run k s with
      | .next t => t.status.busy = false
      | .fault _ => True
      | .refused _ => False) ∧
    (.reset ∉ s.sched → ∃ k ≤ s.sched.length + 1,
      match run k s with
      | .next t => t.status.busy = false ∧ t.status.done = true ∧ t.cmd = s.cmd
      | .fault _ => True
      | .refused _ => False) ∧
    ((∀ x ∈ s.sched, x = .core) →
      match step s with
      | .next t => t.status.busy = false ∧ t.status.done = true ∧ t.cmd = s.cmd
      | .fault f => f = .uninitRead
      | .refused _ => False)

/-! ## The host port, the registers and reset -/

/-- R27: CMD. A write while BUSY = 0 is accepted, whatever the word; while BUSY = 1 it is dropped and sets OVR. A host
read gives the word held and changes nothing but the host's own fields; the word held is the last one accepted, or 0 after reset: a step
changes it in no other way. -/
def Obligations.CommandWriteIsAcceptedOnlyWhenIdle : Prop :=
  (∀ (s : State) (w : Word), s.status.busy = false →
    csrWrite s 0x0C w =
      { s with cmd := w, status := { busy := true, done := false, err := .ok, ovr := s.status.ovr } }) ∧
  (∀ (s : State) (w : Word), s.status.busy = true →
    csrWrite s 0x0C w = { s with status := { s.status with ovr := true } }) ∧
  (∀ (s : State) (x : String) (rest : List HostStmt), s.prog = .read .csr 0x0C 4 x :: rest →
    hostRead s .csr 0x0C 4 = .ok (.word s.cmd) ∧ ∃ names, hostStep s = .next { s with prog := rest, names := names }) ∧
  (∀ s t : State, step s = .next t →
    t.cmd = s.cmd ∨ (s.sched.head? = some .reset ∧ t.cmd = 0x00000000#32) ∨
    (s.status.busy = false ∧ t.status.busy = true ∧ ∃ w rest, s.prog = .write .csr 0x0C 4 w :: rest ∧ t.cmd = w)) ∧
  (∀ p d : Word, (State.resetWith p d).cmd = 0x00000000#32)

/-- The fields of STATUS as software reads them (R28): BUSY 0, DONE 1, reserved 3:2, ERR 7:4, OVR 8, reserved 31:9. -/
def Obligations.StatusWordHasItsFields : Prop :=
  ∀ s : State,
    (csrRead s 0x10).getLsbD 0 = s.status.busy ∧ (csrRead s 0x10).getLsbD 1 = s.status.done ∧
    (csrRead s 0x10).extractLsb' 2 2 = 0#2 ∧ (csrRead s 0x10).extractLsb' 4 4 = errNumber s.status.err ∧
    (csrRead s 0x10).getLsbD 8 = s.status.ovr ∧ (csrRead s 0x10).extractLsb' 9 23 = 0#23

/-- R29: a write of v to STATUS while BUSY = 0 clears DONE and ERR if v[1] = 1 and OVR if v[8] = 1, and ignores every other bit;
while BUSY = 1 it follows R37; reading STATUS changes nothing but the host's own fields. -/
def Obligations.StatusWriteClearsByOnes : Prop :=
  (∀ (s : State) (v : Word), s.status.busy = false →
    csrWrite s 0x10 v =
      { s with status := { busy := false, done := s.status.done && !v.getLsbD 1,
                           err := if v.getLsbD 1 = true then .ok else s.status.err, ovr := s.status.ovr && !v.getLsbD 8 } }) ∧
  (∀ (s : State) (v : Word), s.status.busy = true →
    csrWrite s 0x10 v = { s with status := { s.status with ovr := true } }) ∧
  (∀ (s : State) (x : String) (rest : List HostStmt), s.prog = .read .csr 0x10 4 x :: rest →
    ∃ names, hostStep s = .next { s with prog := rest, names := names })

/-- R36: the reserved offsets read as zero and ignore writes while BUSY = 0; reserved bits of STATUS read as 0. -/
def Obligations.ReservedOffsetsReadZero : Prop :=
  (∀ (s : State) (off : Nat), 0x30 ≤ off → off ≤ 0xFC → csrRead s off = 0x00000000#32) ∧
  (∀ (s : State) (off : Nat) (v : Word), 0x30 ≤ off → off ≤ 0xFC →
    (s.status.busy = false → csrWrite s off v = s) ∧
    (s.status.busy = true → csrWrite s off v = { s with status := { s.status with ovr := true } })) ∧
  (∀ s : State, csrRead s 0x10 &&& 0xFFFFFE0C#32 = 0#32)

/-- R37: a CSR write while BUSY = 1 changes nothing but OVR, whatever the offset; a write of a read-only register (ID, PIXCAP,
DATCAP, RESULT) or of a reserved offset while BUSY = 0 changes nothing. -/
def Obligations.CsrWriteWhileBusyIsDropped : Prop :=
  (∀ (s : State) (off : Nat) (v : Word), s.status.busy = true →
    csrWrite s off v = { s with status := { s.status with ovr := true } }) ∧
  (∀ (s : State) (off : Nat) (v : Word), s.status.busy = false →
    off = 0x00 ∨ off = 0x04 ∨ off = 0x08 ∨ off = 0x2C ∨ 0x30 ≤ off → csrWrite s off v = s)

/-- R24, R25, R26: ID reads 0x4C534231; PIXCAP and DATCAP read the parameters, which no step changes; writes have no effect. -/
def Obligations.IdentityAndCapacitiesAreConstant : Prop :=
  (∀ s : State, csrRead s 0x00 = 0x4C534231#32) ∧
  (∀ p d : Word, csrRead (State.resetWith p d) 0x04 = p ∧ csrRead (State.resetWith p d) 0x08 = d) ∧
  (∀ s t : State, step s = .next t → csrRead t 0x04 = csrRead s 0x04 ∧ csrRead t 0x08 = csrRead s 0x08) ∧
  (∀ (s : State) (off : Nat) (v : Word), off = 0x00 ∨ off = 0x04 ∨ off = 0x08 → s.status.busy = false → csrWrite s off v = s)

/-- The six RW registers (R62): a write while BUSY = 0 stores the word at its offset, where it is read back, and no other offset
changes. -/
def Obligations.OperandRegistersHoldWhatIsWritten : Prop :=
  ∀ (s : State) (off : Nat) (v : Word), s.status.busy = false →
    off = 0x14 ∨ off = 0x18 ∨ off = 0x1C ∨ off = 0x20 ∨ off = 0x24 ∨ off = 0x28 →
    hostWrite s .csr off 4 v = .ok (csrWrite s off v) ∧ hostRead (csrWrite s off v) .csr off 4 = .ok (.word v) ∧
    (∀ o, o ≠ off → csrRead (csrWrite s off v) o = csrRead s o) ∧
    (csrWrite s off v).status = s.status ∧ (csrWrite s off v).pix = s.pix ∧ (csrWrite s off v).dat = s.dat

/-- R65 and R66: a legal host write of a byte v, as WB issues it, to DAT or PIX while BUSY = 0 stores it and sets its mark, and no other byte changes;
a legal read while BUSY = 0 gives the byte, or records UNINIT_READ where the mark is 0; a host read of a byte changes nothing but
the host's own fields. -/
def Obligations.HostByteAccess : Prop :=
  (∀ (s : State) (a : Nat) (v : Byte), s.status.busy = false → a < s.datcap.toNat →
    ∃ m, hostWrite s .dat a 1 (v.setWidth 32) = .ok { s with dat := m } ∧
      ∀ c, Memory.read m c = if c = a then some v else Memory.read s.dat c) ∧
  (∀ (s : State) (a : Nat) (v : Byte), s.status.busy = false → a < s.pixcap.toNat →
    ∃ m, hostWrite s .pix a 1 (v.setWidth 32) = .ok { s with pix := m } ∧
      ∀ c, Memory.read m c = if c = a then some v else Memory.read s.pix c) ∧
  (∀ (s : State) (a : Nat), s.status.busy = false → a < s.datcap.toNat →
    (∀ b, Memory.read s.dat a = some b → hostRead s .dat a 1 = .ok (.byte b)) ∧
    (Memory.read s.dat a = none → hostRead s .dat a 1 = .error .uninitRead)) ∧
  (∀ (s : State) (a : Nat), s.status.busy = false → a < s.pixcap.toNat →
    (∀ b, Memory.read s.pix a = some b → hostRead s .pix a 1 = .ok (.byte b)) ∧
    (Memory.read s.pix a = none → hostRead s .pix a 1 = .error .uninitRead)) ∧
  (∀ (s t : State) (sp : Space) (a : Nat) (x : String) (rest : List HostStmt), s.prog = .read sp a 1 x :: rest →
    hostStep s = .next t → t = { s with prog := rest, names := t.names })

/-- R67: a legal host access to DAT or PIX while BUSY = 1 is the model fault HOST_RACE, and has no next state. -/
def Obligations.HostAccessWhileBusyIsARace : Prop :=
  ∀ (s : State) (sp : Space) (a : Nat) (v : Word) (x : String) (rest : List HostStmt), s.status.busy = true →
    (sp = .dat ∧ a < s.datcap.toNat) ∨ (sp = .pix ∧ a < s.pixcap.toNat) →
    (s.prog = .read sp a 1 x :: rest → hostStep s = .fault .hostRace) ∧
    (s.prog = .write sp a 1 v :: rest → hostStep s = .fault .hostRace)

/-- The legal transactions are those of R62 and R63, and exactly the others are bus errors (R64), for reads and writes. -/
def Obligations.IllegalTransactionsAreBusErrors : Prop :=
  ∀ (s : State) (a w : Nat) (v : Word),
    (hostRead s .csr a w = .error .hostBusError ↔ ¬(w = 4 ∧ a % 4 = 0 ∧ a ≤ 0xFC)) ∧
    (hostWrite s .csr a w v = .error .hostBusError ↔ ¬(w = 4 ∧ a % 4 = 0 ∧ a ≤ 0xFC)) ∧
    (hostRead s .dat a w = .error .hostBusError ↔ ¬(w = 1 ∧ a < s.datcap.toNat)) ∧
    (hostWrite s .dat a w v = .error .hostBusError ↔ ¬(w = 1 ∧ a < s.datcap.toNat)) ∧
    (hostRead s .pix a w = .error .hostBusError ↔ ¬(w = 1 ∧ a < s.pixcap.toNat)) ∧
    (hostWrite s .pix a w v = .error .hostBusError ↔ ¬(w = 1 ∧ a < s.pixcap.toNat))

/-- R220 and R221: the reset event sets every register to its reset value and clears every init mark; the capacities are
constants and the fault set is not cleared. That it leaves the host's fields alone is the model's choice (log 8). -/
def Obligations.ResetEventClearsTheBlock : Prop :=
  ∀ s : State,
    resetEvent s =
      { s with cmd := 0#32, status := ⟨false, false, .ok, false⟩, bufLen := 0#32, bitOffset := 0#32, dataLen := 0#32,
               lenInLo := 0#32, lenInHi := 0#32, lenBytes := 0#32, result := 0#32, pix := [], dat := [] } ∧
    (∀ a, Memory.read (resetEvent s).pix a = none ∧ Memory.read (resetEvent s).dat a = none) ∧
    (Config.capsValid s.pixcap s.datcap = true → s.sched.head? = some .reset →
      step s = .next (resetEvent { s with sched := s.sched.tail }))

/-- The host agent's step (R61, R98): on its turn (log 3) the first statement's transaction takes effect, a read binds its name,
a faulting one ends the run, and a program that has ended does nothing. -/
def Obligations.HostTurnTakesOneTransaction : Prop :=
  ∀ s : State, Config.capsValid s.pixcap s.datcap = true →
    (s.sched.head? = some .host ∨ s.sched = [] ∧ s.status.busy = false) →
    step s = hostStep { s with sched := s.sched.tail } ∧
    (s.prog = [] → hostStep s = .next s) ∧
    (∀ sp a w d rest, s.prog = .write sp a w d :: rest →
      (∀ t, hostWrite s sp a w d = .ok t → hostStep s = .next { t with prog := rest }) ∧
      (∀ f, hostWrite s sp a w d = .error f → hostStep s = .fault f)) ∧
    (∀ sp a w x rest, s.prog = .read sp a w x :: rest →
      (∀ v, hostRead s sp a w = .ok v →
        ∃ names, hostStep s = .next { s with prog := rest, names := names } ∧ names.lookup x = some v ∧
          ∀ y, y ≠ x → names.lookup y = s.names.lookup y) ∧
      (∀ f, hostRead s sp a w = .error f → hostStep s = .fault f))

/-- From the host's command write to its effect (R27, R98, R99): with nobody's turn named (log 3) and BUSY = 0, the host's next
statement `CMD <mnemonic>` is accepted in one step, and the very next step is exec of that command. -/
def Obligations.IssuedCommandRunsNext : Prop :=
  ∀ (s : State) (i : Instr) (rest : List HostStmt), Config.capsValid s.pixcap s.datcap = true → s.status.busy = false →
    s.sched = [] → s.prog = stmtCMD i :: rest →
    ∃ t, step s = .next t ∧ t = { s with cmd := encode i, status := statusAccept s.status, prog := rest } ∧
      step t = exec i t

/-- WAIT (R97) stays the current statement while BUSY = 1 and ends when it reads BUSY = 0; nothing else changes. -/
def Obligations.WaitPollsUntilIdle : Prop :=
  ∀ (s : State) (rest : List HostStmt), s.prog = .wait :: rest →
    (s.status.busy = true → hostStep s = .next s) ∧
    (s.status.busy = false → hostStep s = .next { s with prog := rest })

/-! ## Beside the statements above -/

/-- The bytes of memory that R93 does not list for a command do not matter to it. On two states that differ only there, the
command ends the same way, the states after it agree on all else, and each state keeps its own bytes there. LEN_TO_BYTES and
LEN_FROM_BYTES read no memory; LSB_READ_INT, LSB_READ_BYTES and FRAME_DECODE read no DAT byte; of PIX a command reads only its
window, and LSB_WRITE and FRAME_ENCODE read of DAT only [0, DATA_LEN). FRAME_DECODE's L is what carriers 0 to 31 spell. -/
def Obligations.CommandsReadOnlyTheirBytes : Prop :=
  (∀ (i : Instr) (s : State) (m d : Memory), i = .lenToBytes ∨ i = .lenFromBytes →
    exec i { s with pix := m, dat := d } = mapNext (fun t => { t with pix := m, dat := d }) (exec i s)) ∧
  (∀ (s : State) (m d : Memory),
    (∀ a, s.bitOffset.toNat ≤ a → a < s.bitOffset.toNat + 32 → Memory.read m a = Memory.read s.pix a) →
    exec .lsbReadInt { s with pix := m, dat := d } =
      mapNext (fun t => { t with pix := m, dat := d }) (exec .lsbReadInt s)) ∧
  (∀ (s : State) (m d : Memory),
    (∀ a, s.bitOffset.toNat ≤ a → a < s.bitOffset.toNat + 8 * s.dataLen.toNat → Memory.read m a = Memory.read s.pix a) →
    endAlike (fun t u => u = { t with pix := m, dat := u.dat } ∧
        if t.status.err = .ok then sameWithin 0 s.dataLen.toNat s.dat d t.dat u.dat else t.dat = s.dat ∧ u.dat = d)
      (exec .lsbReadBytes s) (exec .lsbReadBytes { s with pix := m, dat := d })) ∧
  (∀ (s : State) (L : Word) (m d : Memory), spells s.pix 0 L →
    (∀ a < 32 + 8 * L.toNat, Memory.read m a = Memory.read s.pix a) →
    endAlike (fun t u => u = { t with pix := m, dat := u.dat } ∧
        if t.status.err = .ok then sameWithin 0 L.toNat s.dat d t.dat u.dat else t.dat = s.dat ∧ u.dat = d)
      (exec .frameDecode s) (exec .frameDecode { s with pix := m, dat := d })) ∧
  (∀ (s : State) (m d : Memory),
    (∀ a, s.bitOffset.toNat ≤ a → a < s.bitOffset.toNat + 8 * s.dataLen.toNat → Memory.read m a = Memory.read s.pix a) →
    (∀ j < s.dataLen.toNat, Memory.read d j = Memory.read s.dat j) →
    endAlike (fun t u => u = { t with pix := u.pix, dat := d } ∧
        sameWithin s.bitOffset.toNat (s.bitOffset.toNat + 8 * s.dataLen.toNat) s.pix m t.pix u.pix)
      (exec .lsbWrite s) (exec .lsbWrite { s with pix := m, dat := d })) ∧
  (∀ (s : State) (m d : Memory), (∀ a < 32 + 8 * s.dataLen.toNat, Memory.read m a = Memory.read s.pix a) →
    (∀ j < s.dataLen.toNat, Memory.read d j = Memory.read s.dat j) →
    endAlike (fun t u => u = { t with pix := u.pix, dat := d } ∧
        sameWithin 0 (32 + 8 * s.dataLen.toNat) s.pix m t.pix u.pix)
      (exec .frameEncode s) (exec .frameEncode { s with pix := m, dat := d }))

/-- R62: the host port reaches the register file. Whatever BUSY is, a legal CSR read returns csrRead of its offset and a legal
CSR write has the effect csrWrite; a step takes it so. What csrRead gives at the offset of each named register is that
register, and while BUSY = 0 csrWrite stores the word in the field of the RW register at the offset. -/
def Obligations.HostPortReachesEveryRegister : Prop :=
  (∀ (s : State) (a : Nat) (v : Word), a % 4 = 0 → a ≤ 0xFC →
    hostRead s .csr a 4 = .ok (.word (csrRead s a)) ∧ hostWrite s .csr a 4 v = .ok (csrWrite s a v)) ∧
  (∀ (s : State) (a : Nat) (v : Word) (rest : List HostStmt), a % 4 = 0 → a ≤ 0xFC → s.prog = .write .csr a 4 v :: rest →
    hostStep s = .next { csrWrite s a v with prog := rest }) ∧
  (∀ (s : State) (a : Nat) (x : String) (rest : List HostStmt), a % 4 = 0 → a ≤ 0xFC → s.prog = .read .csr a 4 x :: rest →
    ∃ names, hostStep s = .next { s with prog := rest, names := names }) ∧
  (∀ s : State,
    csrRead s 0x00 = 0x4C534231#32 ∧ csrRead s 0x04 = s.pixcap ∧ csrRead s 0x08 = s.datcap ∧ csrRead s 0x0C = s.cmd ∧
    csrRead s 0x10 = statusWord s.status ∧ csrRead s 0x14 = s.bufLen ∧ csrRead s 0x18 = s.bitOffset ∧
    csrRead s 0x1C = s.dataLen ∧ csrRead s 0x20 = s.lenInLo ∧ csrRead s 0x24 = s.lenInHi ∧ csrRead s 0x28 = s.lenBytes ∧
    csrRead s 0x2C = s.result) ∧
  (∀ (s : State) (v : Word), s.status.busy = false →
    csrWrite s 0x14 v = { s with bufLen := v } ∧ csrWrite s 0x18 v = { s with bitOffset := v } ∧
    csrWrite s 0x1C v = { s with dataLen := v } ∧ csrWrite s 0x20 v = { s with lenInLo := v } ∧
    csrWrite s 0x24 v = { s with lenInHi := v } ∧ csrWrite s 0x28 v = { s with lenBytes := v })

/-- The model's choice (log 7): a host write of width 1 to DAT or PIX does what the write of bits 7:0 of its word does, whatever
the bits above are. -/
def Obligations.OneByteWriteTakesTheLowByte : Prop :=
  ∀ (s : State) (sp : Space) (a : Nat) (v : Word), sp = .dat ∨ sp = .pix →
    hostWrite s sp a 1 v = hostWrite s sp a 1 ((v.extractLsb' 0 8).setWidth 32)
end

