-- ==== Sys2Proof/Laws/Bits.lean ====
section
/-! SUPPORT. The laws of bits, bytes and bit streams (00 R10, R11). -/

namespace Sys2Proof.Machine

@[simp] theorem lsb_withLsb (b : Byte) (x : Bool) : lsb (withLsb b x) = x := by
  revert b x; decide

@[simp] theorem upperBits_withLsb (b : Byte) (x : Bool) : upperBits (withLsb b x) = upperBits b := by
  revert b x; decide

/-- A byte is its upper bits and its LSB. -/
theorem byte_ext {b c : Byte} (hu : upperBits b = upperBits c) (hl : lsb b = lsb c) : b = c := by
  have h : ∀ b : Byte, b = upperBits b ++ BitVec.ofBool (lsb b) := by decide
  rw [h b, h c, hu, hl]

@[simp] theorem byteBits_length (b : Byte) : (byteBits b).length = 8 := rfl

/-- Bit k of a byte's stream is bit 7 - k of the byte. -/
theorem byteBits_getElem? (b : Byte) {k : Nat} (hk : k < 8) : (byteBits b)[k]? = some (b.getLsbD (7 - k)) := by
  have : k = 0 ∨ k = 1 ∨ k = 2 ∨ k = 3 ∨ k = 4 ∨ k = 5 ∨ k = 6 ∨ k = 7 := by omega
  rcases this with h | h | h | h | h | h | h | h <;> subst h <;> rfl

@[simp] theorem bitStream_length (bs : List Byte) : (bitStream bs).length = 8 * bs.length := by
  induction bs with
  | nil => rfl
  | cons b bs ih => simp only [bitStream, List.length_append, byteBits_length, List.length_cons, ih]; omega

/-- Bit 8j + k of a stream is bit 7 - k of byte j. -/
theorem bitStream_getElem? (bs : List Byte) (j : Nat) {k : Nat} (hk : k < 8) :
    (bitStream bs)[8 * j + k]? = bs[j]?.map fun b => b.getLsbD (7 - k) := by
  induction bs generalizing j with
  | nil => simp [bitStream]
  | cons b bs ih =>
    simp only [bitStream]
    cases j with
    | zero =>
      rw [List.getElem?_append_left (by simp; omega)]
      simpa using byteBits_getElem? b hk
    | succ j =>
      rw [List.getElem?_append_right (by simp; omega)]
      simpa [show 8 * (j + 1) + k - 8 = 8 * j + k by omega] using ih j

theorem bitsValue_lt (xs : List Bool) : bitsValue xs < 2 ^ xs.length := by
  induction xs with
  | nil => simp [bitsValue]
  | cons x xs ih => simp only [bitsValue, List.length_cons, pow_succ]; cases x <;> simp <;> omega

/-- The bit of weight 2^(n - 1 - i) of a stream's value is bit i of the stream. -/
theorem bitsValue_testBit (xs : List Bool) {i : Nat} (hi : i < xs.length) :
    (bitsValue xs).testBit (xs.length - 1 - i) = xs[i] := by
  induction xs generalizing i with
  | nil => simp at hi
  | cons x xs ih =>
    have hlt := bitsValue_lt xs
    have hx : bitsValue (x :: xs) = 2 ^ xs.length * x.toNat + bitsValue xs := by simp [bitsValue, Nat.mul_comm]
    cases i with
    | zero =>
      rw [hx, Nat.testBit_two_pow_mul_add _ hlt]
      cases x <;> simp
    | succ i =>
      have hi' : i < xs.length := by simpa using hi
      have e : (x :: xs).length - 1 - (i + 1) = xs.length - 1 - i := by simp; omega
      rw [hx, e, Nat.testBit_two_pow_mul_add _ hlt, if_pos (by omega)]
      simpa using ih hi'

/-- The 32-bit value of a stream of 32 bits, bit by bit. -/
theorem bitsValue_word_bit (xs : List Bool) (h : xs.length = 32) {i : Nat} (hi : i < 32) :
    (BitVec.ofNat 32 (bitsValue xs)).getLsbD (31 - i) = xs[i] := by
  have := bitsValue_testBit xs (i := i) (by omega)
  rw [← this, BitVec.getLsbD_ofNat, h]
  simp; omega

theorem packBytes_append_byte (b : Byte) (xs : List Bool) : packBytes (byteBits b ++ xs) = b :: packBytes xs := by
  have h : ∀ b : Byte, BitVec.ofNat 8 (bitsValue [b.getLsbD 7, b.getLsbD 6, b.getLsbD 5, b.getLsbD 4, b.getLsbD 3,
      b.getLsbD 2, b.getLsbD 1, b.getLsbD 0]) = b := by decide
  simp only [byteBits, List.cons_append, List.nil_append, packBytes, h]

/-- Packing the stream of a byte sequence gives it back (00 R11). -/
@[simp] theorem packBytes_bitStream (bs : List Byte) : packBytes (bitStream bs) = bs := by
  induction bs with
  | nil => rfl
  | cons b bs ih => rw [bitStream, packBytes_append_byte, ih]

/-- Every stream of 8n bits is the stream of the n bytes packed from it. -/
theorem bitStream_packBytes (n : Nat) (xs : List Bool) (h : xs.length = 8 * n) :
    (packBytes xs).length = n ∧ bitStream (packBytes xs) = xs := by
  induction n generalizing xs with
  | zero =>
    have : xs = [] := List.eq_nil_of_length_eq_zero (by omega)
    subst this; exact ⟨rfl, rfl⟩
  | succ n ih =>
    match xs, h with
    | b0 :: b1 :: b2 :: b3 :: b4 :: b5 :: b6 :: b7 :: rest, h =>
      have hr : rest.length = 8 * n := by simp at h; omega
      obtain ⟨h1, h2⟩ := ih rest hr
      have hb : ∀ b0 b1 b2 b3 b4 b5 b6 b7 : Bool,
          byteBits (BitVec.ofNat 8 (bitsValue [b0, b1, b2, b3, b4, b5, b6, b7])) = [b0, b1, b2, b3, b4, b5, b6, b7] := by
        decide
      simp only [packBytes, bitStream, List.length_cons, h1, h2, hb]
      exact ⟨trivial, rfl⟩

/-- Bit 7 - k of the j-th packed byte is bit 8j + k of the stream. -/
theorem packBytes_bit {n : Nat} {xs : List Bool} (h : xs.length = 8 * n) {j k : Nat} (hj : j < n) (hk : k < 8) :
    ∃ x, (packBytes xs)[j]? = some x ∧ xs[8 * j + k]? = some (x.getLsbD (7 - k)) := by
  obtain ⟨h1, h2⟩ := bitStream_packBytes n xs h
  have hlt : j < (packBytes xs).length := by omega
  refine ⟨(packBytes xs)[j], List.getElem?_eq_getElem hlt, ?_⟩
  conv_lhs => rw [← h2]
  rw [bitStream_getElem? _ _ hk, List.getElem?_eq_getElem hlt]; rfl

@[simp] theorem wordBytes_length (v : Word) : (wordBytes v).length = 4 := rfl

/-- The stream of a 32-bit value's four bytes is its bits, MSB first (00 R11). -/
theorem bitStream_wordBytes (v : Word) {i : Nat} (hi : i < 32) :
    (bitStream (wordBytes v))[i]? = some (v.getLsbD (31 - i)) := by
  obtain ⟨j, k, hj, hk, rfl⟩ : ∃ j k, j < 4 ∧ k < 8 ∧ i = 8 * j + k := ⟨i / 8, i % 8, by omega, by omega, by omega⟩
  rw [bitStream_getElem? _ _ hk]
  have : j = 0 ∨ j = 1 ∨ j = 2 ∨ j = 3 := by omega
  rcases this with h | h | h | h <;> subst h <;>
    simp [wordBytes, show 7 - k < 8 by omega] <;> exact congrArg _ (by omega)

end Sys2Proof.Machine
end

