-- ==== Sys2Proof/Laws/Memory.lean ====
section
/-! SUPPORT. The laws of a byte memory: what a read gives after a write, and that every memory operation keeps the
canonical form and the bound on addresses. -/

namespace Sys2Proof.Machine

@[simp] theorem Memory.read_nil (a : Nat) : Memory.read [] a = none := rfl

theorem Memory.read_cons (k : Nat) (b : Byte) (m : Memory) (a : Nat) :
    Memory.read ((k, b) :: m) a = if k = a then some b else Memory.read m a := rfl

/-- A read after a write: the byte written at its address, the old byte elsewhere. -/
theorem Memory.read_write (m : Memory) (a c : Nat) (v : Byte) :
    Memory.read (Memory.write m a v) c = if a = c then some v else Memory.read m c := by
  induction m with
  | nil => simp [Memory.write, Memory.read]
  | cons hd m ih =>
    obtain ⟨k, b⟩ := hd
    simp only [Memory.write]
    split
    · simp [Memory.read]
    · split
      · next h => subst h; simp only [Memory.read]; split <;> rfl
      · next h1 h2 =>
        simp only [Memory.read, ih]
        by_cases h : k = c
        · subst h; simp [h2]
        · simp [h]

@[simp] theorem Memory.read_write_same (m : Memory) (a : Nat) (v : Byte) :
    Memory.read (Memory.write m a v) a = some v := by simp [Memory.read_write]

theorem Memory.read_write_other (m : Memory) {a c : Nat} (v : Byte) (h : a ≠ c) :
    Memory.read (Memory.write m a v) c = Memory.read m c := by simp [Memory.read_write, h]

/-- A write lists the address written and nothing else new. -/
theorem Memory.mem_write {m : Memory} {a : Nat} {v : Byte} {c : Host.Cell} (h : c ∈ Memory.write m a v) :
    c = (a, v) ∨ c ∈ m := by
  induction m with
  | nil => simpa [Memory.write] using h
  | cons hd m ih =>
    obtain ⟨k, b⟩ := hd
    simp only [Memory.write] at h
    split at h
    · simpa using h
    · split at h
      · simp only [List.mem_cons] at h ⊢; tauto
      · simp only [List.mem_cons] at h ⊢
        rcases h with h | h
        · exact .inr (.inl h)
        · exact (ih h).imp id .inr

theorem Memory.write_wf {m : Memory} (a : Nat) (v : Byte) (h : m.wf) : (Memory.write m a v).wf := by
  induction m with
  | nil => simp [Memory.write, Memory.wf]
  | cons hd m ih =>
    obtain ⟨k, b⟩ := hd
    obtain ⟨hk, hm⟩ := List.pairwise_cons.1 h
    simp only [Memory.write]
    split
    · next hlt =>
      refine List.pairwise_cons.2 ⟨fun c hc => ?_, h⟩
      rcases List.mem_cons.1 hc with rfl | hc
      · exact hlt
      · exact lt_trans hlt (hk c hc)
    · split
      · next heq => subst heq; exact List.pairwise_cons.2 ⟨hk, hm⟩
      · next h1 h2 =>
        refine List.pairwise_cons.2 ⟨fun c hc => ?_, ih hm⟩
        rcases Memory.mem_write hc with rfl | hc
        · show k < a; omega
        · exact hk c hc

theorem Memory.write_below {m : Memory} {cap a : Nat} (v : Byte) (h : m.below cap) (ha : a < cap) :
    (Memory.write m a v).below cap := fun c hc => by
  rcases Memory.mem_write hc with rfl | hc
  · exact ha
  · exact h c hc

theorem Memory.writeSeq_wf {m : Memory} (a : Nat) (bs : List Byte) (h : m.wf) : (Memory.writeSeq m a bs).wf := by
  induction bs generalizing m a with
  | nil => exact h
  | cons b bs ih => exact ih (a + 1) (Memory.write_wf a b h)

theorem Memory.writeSeq_below {m : Memory} {cap : Nat} (a : Nat) (bs : List Byte) (h : m.below cap)
    (ha : a + bs.length ≤ cap) : (Memory.writeSeq m a bs).below cap := by
  induction bs generalizing m a with
  | nil => exact h
  | cons b bs ih =>
    simp only [List.length_cons] at ha
    exact ih (a + 1) (Memory.write_below b h (by omega)) (by omega)

/-- A read after storing a byte sequence: byte a - lo of the sequence inside it, the old byte elsewhere. -/
theorem Memory.read_writeSeq (m : Memory) (lo : Nat) (bs : List Byte) (a : Nat) :
    Memory.read (Memory.writeSeq m lo bs) a =
      if lo ≤ a ∧ a < lo + bs.length then bs[a - lo]? else Memory.read m a := by
  induction bs generalizing m lo with
  | nil =>
    have : ¬(lo ≤ a ∧ a < lo) := by omega
    simp [Memory.writeSeq, this]
  | cons b bs ih =>
    simp only [Memory.writeSeq, ih, Memory.read_write, List.length_cons]
    by_cases h : lo = a
    · subst h
      have : ¬(lo + 1 ≤ lo) := by omega
      simp [this]
    · by_cases h1 : lo ≤ a ∧ a < lo + (bs.length + 1)
      · rw [if_pos (by omega), if_pos h1, show a - lo = (a - (lo + 1)) + 1 by omega]
        simp
      · rw [if_neg (by omega), if_neg h, if_neg h1]

end Sys2Proof.Machine
end

