-- ==== Sys2Proof/Laws/Carriers.lean ====
section
/-! SUPPORT. The laws of carriers (20 R69, R70): what a carrier stream read gives, what a carrier stream write leaves, and when
either meets an uninitialised byte. -/

namespace Sys2Proof.Machine

/-- The byte source yields exactly the gathered bytes. -/
theorem gatherBytes_some {d : Nat → Option Byte} {j n : Nat} {bs : List Byte} (h : gatherBytes d j n = some bs) :
    bs.length = n ∧ ∀ i < n, bs[i]? = d (j + i) := by
  induction n generalizing j bs with
  | zero =>
    simp only [gatherBytes, Option.some.injEq] at h
    subst h; simp
  | succ n ih =>
    simp only [gatherBytes] at h
    split at h
    · cases h
    · next b hb =>
      split at h
      · cases h
      · next bs' hbs =>
        cases h
        obtain ⟨h1, h2⟩ := ih hbs
        refine ⟨by simp [h1], fun i hi => ?_⟩
        cases i with
        | zero => simp [hb]
        | succ i => simpa [show j + (i + 1) = j + 1 + i by omega] using h2 i (by omega)

theorem gatherBytes_isSome {d : Nat → Option Byte} {j n : Nat} :
    (gatherBytes d j n).isSome = true ↔ ∀ i < n, (d (j + i)).isSome = true := by
  induction n generalizing j with
  | zero => simp [gatherBytes]
  | succ n ih =>
    have key : (∀ i < n + 1, (d (j + i)).isSome = true) ↔
        (d j).isSome = true ∧ ∀ i < n, (d (j + 1 + i)).isSome = true := by
      constructor
      · intro h
        exact ⟨h 0 (by omega), fun i hi => by simpa [show j + 1 + i = j + (i + 1) by omega] using h (i + 1) (by omega)⟩
      · rintro ⟨h0, h⟩ i hi
        cases i with
        | zero => exact h0
        | succ i => simpa [show j + (i + 1) = j + 1 + i by omega] using h i (by omega)
    rw [key, ← ih]
    simp only [gatherBytes]
    cases d j with
    | none => simp
    | some b => cases gatherBytes d (j + 1) n <;> simp

theorem readCarriers_some {m : Memory} {p n : Nat} {xs : List Bool} (h : readCarriers m p n = some xs) :
    xs.length = n ∧ ∀ i < n, xs[i]? = (Memory.read m (p + i)).map lsb := by
  induction n generalizing p xs with
  | zero =>
    simp only [readCarriers, Option.some.injEq] at h
    subst h; simp
  | succ n ih =>
    simp only [readCarriers] at h
    split at h
    · cases h
    · next b hb =>
      split at h
      · cases h
      · next xs' hxs =>
        cases h
        obtain ⟨h1, h2⟩ := ih hxs
        refine ⟨by simp [h1], fun i hi => ?_⟩
        cases i with
        | zero => simp [hb]
        | succ i => simpa [show p + (i + 1) = p + 1 + i by omega] using h2 i (by omega)

theorem readCarriers_isSome {m : Memory} {p n : Nat} : (readCarriers m p n).isSome = true ↔ m.initOn p n := by
  induction n generalizing p with
  | zero => simp [readCarriers, Memory.initOn]
  | succ n ih =>
    have key : m.initOn p (n + 1) ↔ (Memory.read m p).isSome = true ∧ m.initOn (p + 1) n := by
      constructor
      · intro h
        exact ⟨h 0 (by omega), fun i hi => by simpa [show p + 1 + i = p + (i + 1) by omega] using h (i + 1) (by omega)⟩
      · rintro ⟨h0, h⟩ i hi
        cases i with
        | zero => exact h0
        | succ i => simpa [show p + (i + 1) = p + 1 + i by omega] using h i (by omega)
    rw [key, ← ih]
    simp only [readCarriers]
    cases Memory.read m p with
    | none => simp
    | some b => cases readCarriers m (p + 1) n <;> simp

/-- Each bit read is the LSB of its carrier. -/
theorem readCarriers_bit {m : Memory} {p n : Nat} {xs : List Bool} (h : readCarriers m p n = some xs) {i : Nat}
    (hi : i < n) : xs[i]? = some (carrierBit m (p + i)) := by
  have hs : (Memory.read m (p + i)).isSome = true := readCarriers_isSome.1 (by simp [h]) i hi
  obtain ⟨b, hb⟩ := Option.isSome_iff_exists.1 hs
  rw [(readCarriers_some h).2 i hi, carrierBit, hb]; rfl

/-- Reading carriers depends on the window alone. -/
theorem readCarriers_congr {m m' : Memory} {p n : Nat} (h : ∀ i < n, Memory.read m (p + i) = Memory.read m' (p + i)) :
    readCarriers m p n = readCarriers m' p n := by
  induction n generalizing p with
  | zero => rfl
  | succ n ih =>
    have h0 := h 0 (by omega)
    have hr := ih (p := p + 1) fun i hi => by
      simpa [show p + 1 + i = p + (i + 1) by omega] using h (i + 1) (by omega)
    simp only [readCarriers, hr]
    rw [show Memory.read m p = Memory.read m' p by simpa using h0]

/-- What a carrier stream write leaves (20 R69, R70): in its window each byte with its LSB replaced, elsewhere the same. -/
theorem writeCarriers_read {m m' : Memory} {p : Nat} {xs : List Bool} (h : writeCarriers m p xs = some m') (a : Nat) :
    Memory.read m' a =
      if p ≤ a ∧ a < p + xs.length then
        (Memory.read m a).bind fun b => (xs[a - p]?).map (withLsb b)
      else Memory.read m a := by
  induction xs generalizing m p with
  | nil =>
    simp only [writeCarriers, Option.some.injEq] at h
    subst h
    rw [if_neg (by simp)]
  | cons x xs ih =>
    simp only [writeCarriers] at h
    split at h
    · cases h
    · next m1 hm1 =>
      simp only [writeCarrier] at hm1
      split at hm1
      · cases hm1
      · next b hb =>
        cases hm1
        rw [ih h, Memory.read_write, List.length_cons]
        by_cases hp : p = a
        · subst hp
          rw [if_neg (by omega), if_pos rfl, if_pos (by omega), hb]
          simp
        · by_cases h1 : p ≤ a ∧ a < p + (xs.length + 1)
          · rw [if_pos (by omega), if_pos h1, if_neg hp, show a - p = a - (p + 1) + 1 by omega]
            simp
          · rw [if_neg (by omega), if_neg h1, if_neg hp]

theorem writeCarriers_isSome {m : Memory} {p : Nat} {xs : List Bool} :
    (writeCarriers m p xs).isSome = true ↔ m.initOn p xs.length := by
  induction xs generalizing m p with
  | nil => simp [writeCarriers, Memory.initOn]
  | cons x xs ih =>
    have key : m.initOn p (xs.length + 1) ↔ (Memory.read m p).isSome = true ∧ m.initOn (p + 1) xs.length := by
      constructor
      · intro h
        exact ⟨h 0 (by omega), fun i hi => by simpa [show p + 1 + i = p + (i + 1) by omega] using h (i + 1) (by omega)⟩
      · rintro ⟨h0, h⟩ i hi
        cases i with
        | zero => exact h0
        | succ i => simpa [show p + (i + 1) = p + 1 + i by omega] using h i (by omega)
    rw [List.length_cons, key]
    simp only [writeCarriers, writeCarrier]
    cases hb : Memory.read m p with
    | none => simp
    | some b =>
      simp only [Option.isSome_some, true_and]
      rw [ih]
      have : ∀ i, Memory.read (Memory.write m p (withLsb b x)) (p + 1 + i) = Memory.read m (p + 1 + i) := fun i =>
        Memory.read_write_other m _ (by omega)
      simp only [Memory.initOn, this]

theorem writeCarriers_wf {m m' : Memory} {p : Nat} {xs : List Bool} (h : writeCarriers m p xs = some m') (hw : m.wf) :
    m'.wf := by
  induction xs generalizing m p with
  | nil => simp only [writeCarriers, Option.some.injEq] at h; exact h ▸ hw
  | cons x xs ih =>
    simp only [writeCarriers] at h
    split at h
    · cases h
    · next m1 hm1 =>
      simp only [writeCarrier] at hm1
      split at hm1
      · cases hm1
      · cases hm1; exact ih h (Memory.write_wf _ _ hw)

theorem writeCarriers_below {m m' : Memory} {p cap : Nat} {xs : List Bool} (h : writeCarriers m p xs = some m')
    (hb : m.below cap) (hp : p + xs.length ≤ cap) : m'.below cap := by
  induction xs generalizing m p with
  | nil => simp only [writeCarriers, Option.some.injEq] at h; exact h ▸ hb
  | cons x xs ih =>
    simp only [List.length_cons] at hp
    simp only [writeCarriers] at h
    split at h
    · cases h
    · next m1 hm1 =>
      simp only [writeCarrier] at hm1
      split at hm1
      · cases hm1
      · cases hm1; exact ih h (Memory.write_below _ hb (by omega)) (by omega)

/-- A carrier stream write keeps bits 7..1 of every byte, and which bytes are written. -/
theorem writeCarriers_sameUpperBits {m m' : Memory} {p : Nat} {xs : List Bool} (h : writeCarriers m p xs = some m') :
    sameUpperBits m m' := fun a => by
  rw [writeCarriers_read h]
  split
  · next ha =>
    have hx : xs[a - p]? = some (xs[a - p]'(by omega)) := List.getElem?_eq_getElem (by omega)
    cases Memory.read m a with
    | none => rfl
    | some b => simp [hx]
  · rfl

/-- A carrier stream write leaves every byte outside its window. -/
theorem writeCarriers_outside {m m' : Memory} {p : Nat} {xs : List Bool} (h : writeCarriers m p xs = some m') {a : Nat}
    (ha : a < p ∨ p + xs.length ≤ a) : Memory.read m' a = Memory.read m a := by
  rw [writeCarriers_read h, if_neg (by omega)]

/-- After a carrier stream write, each carrier of the window holds its bit. -/
theorem writeCarriers_bit {m m' : Memory} {p : Nat} {xs : List Bool} (h : writeCarriers m p xs = some m') {i : Nat}
    (hi : i < xs.length) : carrierBit m' (p + i) = xs[i] := by
  have hs := writeCarriers_isSome.1 (show (writeCarriers m p xs).isSome = true by simp [h]) i hi
  obtain ⟨b, hb⟩ := Option.isSome_iff_exists.1 hs
  have hx : xs[p + i - p]? = some xs[i] := by
    rw [show p + i - p = i by omega]; exact List.getElem?_eq_getElem hi
  rw [carrierBit, writeCarriers_read h, if_pos (by omega), hb]
  simp only [Option.bind_some, hx, Option.map_some, lsb_withLsb]

/-- Writing the same stream again to a memory that agrees on the window succeeds alike. -/
theorem initOn_of_sameUpperBits {m m' : Memory} (h : sameUpperBits m m') {lo len : Nat} (hi : m.initOn lo len) :
    m'.initOn lo len := fun p hp => by
  have h1 := congrArg Option.isSome (h (lo + p))
  simpa [hi p hp] using h1

end Sys2Proof.Machine
end

