-- ==== Sys2Proof/Laws/State.lean ====
section
/-! SUPPORT. One lemma per field per update of State, true by rfl, so that no proof unfolds a record update. -/

namespace Sys2Proof.Machine

variable (s : State)

@[simp] theorem setPix_pixcap (m : Memory) : (s.setPix m).pixcap = s.pixcap := rfl
@[simp] theorem setPix_datcap (m : Memory) : (s.setPix m).datcap = s.datcap := rfl
@[simp] theorem setPix_cmd (m : Memory) : (s.setPix m).cmd = s.cmd := rfl
@[simp] theorem setPix_status (m : Memory) : (s.setPix m).status = s.status := rfl
@[simp] theorem setPix_bufLen (m : Memory) : (s.setPix m).bufLen = s.bufLen := rfl
@[simp] theorem setPix_bitOffset (m : Memory) : (s.setPix m).bitOffset = s.bitOffset := rfl
@[simp] theorem setPix_dataLen (m : Memory) : (s.setPix m).dataLen = s.dataLen := rfl
@[simp] theorem setPix_lenInLo (m : Memory) : (s.setPix m).lenInLo = s.lenInLo := rfl
@[simp] theorem setPix_lenInHi (m : Memory) : (s.setPix m).lenInHi = s.lenInHi := rfl
@[simp] theorem setPix_lenBytes (m : Memory) : (s.setPix m).lenBytes = s.lenBytes := rfl
@[simp] theorem setPix_result (m : Memory) : (s.setPix m).result = s.result := rfl
@[simp] theorem setPix_pix (m : Memory) : (s.setPix m).pix = m := rfl
@[simp] theorem setPix_dat (m : Memory) : (s.setPix m).dat = s.dat := rfl
@[simp] theorem setPix_faults (m : Memory) : (s.setPix m).faults = s.faults := rfl
@[simp] theorem setPix_draws (m : Memory) : (s.setPix m).draws = s.draws := rfl
@[simp] theorem setPix_prog (m : Memory) : (s.setPix m).prog = s.prog := rfl
@[simp] theorem setPix_names (m : Memory) : (s.setPix m).names = s.names := rfl
@[simp] theorem setPix_sched (m : Memory) : (s.setPix m).sched = s.sched := rfl

@[simp] theorem setDat_pixcap (m : Memory) : (s.setDat m).pixcap = s.pixcap := rfl
@[simp] theorem setDat_datcap (m : Memory) : (s.setDat m).datcap = s.datcap := rfl
@[simp] theorem setDat_cmd (m : Memory) : (s.setDat m).cmd = s.cmd := rfl
@[simp] theorem setDat_status (m : Memory) : (s.setDat m).status = s.status := rfl
@[simp] theorem setDat_bufLen (m : Memory) : (s.setDat m).bufLen = s.bufLen := rfl
@[simp] theorem setDat_bitOffset (m : Memory) : (s.setDat m).bitOffset = s.bitOffset := rfl
@[simp] theorem setDat_dataLen (m : Memory) : (s.setDat m).dataLen = s.dataLen := rfl
@[simp] theorem setDat_lenInLo (m : Memory) : (s.setDat m).lenInLo = s.lenInLo := rfl
@[simp] theorem setDat_lenInHi (m : Memory) : (s.setDat m).lenInHi = s.lenInHi := rfl
@[simp] theorem setDat_lenBytes (m : Memory) : (s.setDat m).lenBytes = s.lenBytes := rfl
@[simp] theorem setDat_result (m : Memory) : (s.setDat m).result = s.result := rfl
@[simp] theorem setDat_pix (m : Memory) : (s.setDat m).pix = s.pix := rfl
@[simp] theorem setDat_dat (m : Memory) : (s.setDat m).dat = m := rfl
@[simp] theorem setDat_faults (m : Memory) : (s.setDat m).faults = s.faults := rfl
@[simp] theorem setDat_draws (m : Memory) : (s.setDat m).draws = s.draws := rfl
@[simp] theorem setDat_prog (m : Memory) : (s.setDat m).prog = s.prog := rfl
@[simp] theorem setDat_names (m : Memory) : (s.setDat m).names = s.names := rfl
@[simp] theorem setDat_sched (m : Memory) : (s.setDat m).sched = s.sched := rfl

@[simp] theorem setResult_pixcap (v : Word) : (s.setResult v).pixcap = s.pixcap := rfl
@[simp] theorem setResult_datcap (v : Word) : (s.setResult v).datcap = s.datcap := rfl
@[simp] theorem setResult_cmd (v : Word) : (s.setResult v).cmd = s.cmd := rfl
@[simp] theorem setResult_status (v : Word) : (s.setResult v).status = s.status := rfl
@[simp] theorem setResult_bufLen (v : Word) : (s.setResult v).bufLen = s.bufLen := rfl
@[simp] theorem setResult_bitOffset (v : Word) : (s.setResult v).bitOffset = s.bitOffset := rfl
@[simp] theorem setResult_dataLen (v : Word) : (s.setResult v).dataLen = s.dataLen := rfl
@[simp] theorem setResult_lenInLo (v : Word) : (s.setResult v).lenInLo = s.lenInLo := rfl
@[simp] theorem setResult_lenInHi (v : Word) : (s.setResult v).lenInHi = s.lenInHi := rfl
@[simp] theorem setResult_lenBytes (v : Word) : (s.setResult v).lenBytes = s.lenBytes := rfl
@[simp] theorem setResult_result (v : Word) : (s.setResult v).result = v := rfl
@[simp] theorem setResult_pix (v : Word) : (s.setResult v).pix = s.pix := rfl
@[simp] theorem setResult_dat (v : Word) : (s.setResult v).dat = s.dat := rfl
@[simp] theorem setResult_faults (v : Word) : (s.setResult v).faults = s.faults := rfl
@[simp] theorem setResult_draws (v : Word) : (s.setResult v).draws = s.draws := rfl
@[simp] theorem setResult_prog (v : Word) : (s.setResult v).prog = s.prog := rfl
@[simp] theorem setResult_names (v : Word) : (s.setResult v).names = s.names := rfl
@[simp] theorem setResult_sched (v : Word) : (s.setResult v).sched = s.sched := rfl

@[simp] theorem setLenBytes_pixcap (v : Word) : (s.setLenBytes v).pixcap = s.pixcap := rfl
@[simp] theorem setLenBytes_datcap (v : Word) : (s.setLenBytes v).datcap = s.datcap := rfl
@[simp] theorem setLenBytes_cmd (v : Word) : (s.setLenBytes v).cmd = s.cmd := rfl
@[simp] theorem setLenBytes_status (v : Word) : (s.setLenBytes v).status = s.status := rfl
@[simp] theorem setLenBytes_bufLen (v : Word) : (s.setLenBytes v).bufLen = s.bufLen := rfl
@[simp] theorem setLenBytes_bitOffset (v : Word) : (s.setLenBytes v).bitOffset = s.bitOffset := rfl
@[simp] theorem setLenBytes_dataLen (v : Word) : (s.setLenBytes v).dataLen = s.dataLen := rfl
@[simp] theorem setLenBytes_lenInLo (v : Word) : (s.setLenBytes v).lenInLo = s.lenInLo := rfl
@[simp] theorem setLenBytes_lenInHi (v : Word) : (s.setLenBytes v).lenInHi = s.lenInHi := rfl
@[simp] theorem setLenBytes_lenBytes (v : Word) : (s.setLenBytes v).lenBytes = v := rfl
@[simp] theorem setLenBytes_result (v : Word) : (s.setLenBytes v).result = s.result := rfl
@[simp] theorem setLenBytes_pix (v : Word) : (s.setLenBytes v).pix = s.pix := rfl
@[simp] theorem setLenBytes_dat (v : Word) : (s.setLenBytes v).dat = s.dat := rfl
@[simp] theorem setLenBytes_faults (v : Word) : (s.setLenBytes v).faults = s.faults := rfl
@[simp] theorem setLenBytes_draws (v : Word) : (s.setLenBytes v).draws = s.draws := rfl
@[simp] theorem setLenBytes_prog (v : Word) : (s.setLenBytes v).prog = s.prog := rfl
@[simp] theorem setLenBytes_names (v : Word) : (s.setLenBytes v).names = s.names := rfl
@[simp] theorem setLenBytes_sched (v : Word) : (s.setLenBytes v).sched = s.sched := rfl

@[simp] theorem complete_pixcap (e : ErrCode) : (s.complete e).pixcap = s.pixcap := rfl
@[simp] theorem complete_datcap (e : ErrCode) : (s.complete e).datcap = s.datcap := rfl
@[simp] theorem complete_cmd (e : ErrCode) : (s.complete e).cmd = s.cmd := rfl
@[simp] theorem complete_status (e : ErrCode) : (s.complete e).status = statusComplete s.status e := rfl
@[simp] theorem complete_bufLen (e : ErrCode) : (s.complete e).bufLen = s.bufLen := rfl
@[simp] theorem complete_bitOffset (e : ErrCode) : (s.complete e).bitOffset = s.bitOffset := rfl
@[simp] theorem complete_dataLen (e : ErrCode) : (s.complete e).dataLen = s.dataLen := rfl
@[simp] theorem complete_lenInLo (e : ErrCode) : (s.complete e).lenInLo = s.lenInLo := rfl
@[simp] theorem complete_lenInHi (e : ErrCode) : (s.complete e).lenInHi = s.lenInHi := rfl
@[simp] theorem complete_lenBytes (e : ErrCode) : (s.complete e).lenBytes = s.lenBytes := rfl
@[simp] theorem complete_result (e : ErrCode) : (s.complete e).result = s.result := rfl
@[simp] theorem complete_pix (e : ErrCode) : (s.complete e).pix = s.pix := rfl
@[simp] theorem complete_dat (e : ErrCode) : (s.complete e).dat = s.dat := rfl
@[simp] theorem complete_faults (e : ErrCode) : (s.complete e).faults = s.faults := rfl
@[simp] theorem complete_draws (e : ErrCode) : (s.complete e).draws = s.draws := rfl
@[simp] theorem complete_prog (e : ErrCode) : (s.complete e).prog = s.prog := rfl
@[simp] theorem complete_names (e : ErrCode) : (s.complete e).names = s.names := rfl
@[simp] theorem complete_sched (e : ErrCode) : (s.complete e).sched = s.sched := rfl

@[simp] theorem nextDraw_pixcap : s.nextDraw.pixcap = s.pixcap := rfl
@[simp] theorem nextDraw_datcap : s.nextDraw.datcap = s.datcap := rfl
@[simp] theorem nextDraw_cmd : s.nextDraw.cmd = s.cmd := rfl
@[simp] theorem nextDraw_status : s.nextDraw.status = s.status := rfl
@[simp] theorem nextDraw_bufLen : s.nextDraw.bufLen = s.bufLen := rfl
@[simp] theorem nextDraw_bitOffset : s.nextDraw.bitOffset = s.bitOffset := rfl
@[simp] theorem nextDraw_dataLen : s.nextDraw.dataLen = s.dataLen := rfl
@[simp] theorem nextDraw_lenInLo : s.nextDraw.lenInLo = s.lenInLo := rfl
@[simp] theorem nextDraw_lenInHi : s.nextDraw.lenInHi = s.lenInHi := rfl
@[simp] theorem nextDraw_lenBytes : s.nextDraw.lenBytes = s.lenBytes := rfl
@[simp] theorem nextDraw_result : s.nextDraw.result = s.result := rfl
@[simp] theorem nextDraw_pix : s.nextDraw.pix = s.pix := rfl
@[simp] theorem nextDraw_dat : s.nextDraw.dat = s.dat := rfl
@[simp] theorem nextDraw_faults : s.nextDraw.faults = s.faults := rfl
@[simp] theorem nextDraw_draws : s.nextDraw.draws = s.draws + 1 := rfl
@[simp] theorem nextDraw_prog : s.nextDraw.prog = s.prog := rfl
@[simp] theorem nextDraw_names : s.nextDraw.names = s.names := rfl
@[simp] theorem nextDraw_sched : s.nextDraw.sched = s.sched := rfl

@[simp] theorem acceptCommand_pixcap (w : Word) : (s.acceptCommand w).pixcap = s.pixcap := rfl
@[simp] theorem acceptCommand_datcap (w : Word) : (s.acceptCommand w).datcap = s.datcap := rfl
@[simp] theorem acceptCommand_cmd (w : Word) : (s.acceptCommand w).cmd = w := rfl
@[simp] theorem acceptCommand_status (w : Word) : (s.acceptCommand w).status = statusAccept s.status := rfl
@[simp] theorem acceptCommand_bufLen (w : Word) : (s.acceptCommand w).bufLen = s.bufLen := rfl
@[simp] theorem acceptCommand_bitOffset (w : Word) : (s.acceptCommand w).bitOffset = s.bitOffset := rfl
@[simp] theorem acceptCommand_dataLen (w : Word) : (s.acceptCommand w).dataLen = s.dataLen := rfl
@[simp] theorem acceptCommand_lenInLo (w : Word) : (s.acceptCommand w).lenInLo = s.lenInLo := rfl
@[simp] theorem acceptCommand_lenInHi (w : Word) : (s.acceptCommand w).lenInHi = s.lenInHi := rfl
@[simp] theorem acceptCommand_lenBytes (w : Word) : (s.acceptCommand w).lenBytes = s.lenBytes := rfl
@[simp] theorem acceptCommand_result (w : Word) : (s.acceptCommand w).result = s.result := rfl
@[simp] theorem acceptCommand_pix (w : Word) : (s.acceptCommand w).pix = s.pix := rfl
@[simp] theorem acceptCommand_dat (w : Word) : (s.acceptCommand w).dat = s.dat := rfl
@[simp] theorem acceptCommand_faults (w : Word) : (s.acceptCommand w).faults = s.faults := rfl
@[simp] theorem acceptCommand_draws (w : Word) : (s.acceptCommand w).draws = s.draws := rfl
@[simp] theorem acceptCommand_prog (w : Word) : (s.acceptCommand w).prog = s.prog := rfl
@[simp] theorem acceptCommand_names (w : Word) : (s.acceptCommand w).names = s.names := rfl
@[simp] theorem acceptCommand_sched (w : Word) : (s.acceptCommand w).sched = s.sched := rfl

@[simp] theorem resetEvent_pixcap : (resetEvent s).pixcap = s.pixcap := rfl
@[simp] theorem resetEvent_datcap : (resetEvent s).datcap = s.datcap := rfl
@[simp] theorem resetEvent_cmd : (resetEvent s).cmd = 0#32 := rfl
@[simp] theorem resetEvent_status : (resetEvent s).status = Status.reset := rfl
@[simp] theorem resetEvent_bufLen : (resetEvent s).bufLen = 0#32 := rfl
@[simp] theorem resetEvent_bitOffset : (resetEvent s).bitOffset = 0#32 := rfl
@[simp] theorem resetEvent_dataLen : (resetEvent s).dataLen = 0#32 := rfl
@[simp] theorem resetEvent_lenInLo : (resetEvent s).lenInLo = 0#32 := rfl
@[simp] theorem resetEvent_lenInHi : (resetEvent s).lenInHi = 0#32 := rfl
@[simp] theorem resetEvent_lenBytes : (resetEvent s).lenBytes = 0#32 := rfl
@[simp] theorem resetEvent_result : (resetEvent s).result = 0#32 := rfl
@[simp] theorem resetEvent_pix : (resetEvent s).pix = [] := rfl
@[simp] theorem resetEvent_dat : (resetEvent s).dat = [] := rfl
@[simp] theorem resetEvent_faults : (resetEvent s).faults = s.faults := rfl
@[simp] theorem resetEvent_draws : (resetEvent s).draws = s.draws := rfl
@[simp] theorem resetEvent_prog : (resetEvent s).prog = s.prog := rfl
@[simp] theorem resetEvent_names : (resetEvent s).names = s.names := rfl
@[simp] theorem resetEvent_sched : (resetEvent s).sched = s.sched := rfl

@[simp] theorem statusComplete_busy (st : Status) (e : ErrCode) : (statusComplete st e).busy = false := rfl
@[simp] theorem statusComplete_done (st : Status) (e : ErrCode) : (statusComplete st e).done = true := rfl
@[simp] theorem statusComplete_err (st : Status) (e : ErrCode) : (statusComplete st e).err = e := rfl
@[simp] theorem statusComplete_ovr (st : Status) (e : ErrCode) : (statusComplete st e).ovr = st.ovr := rfl
@[simp] theorem statusAccept_busy (st : Status) : (statusAccept st).busy = true := rfl
@[simp] theorem statusAccept_done (st : Status) : (statusAccept st).done = false := rfl
@[simp] theorem statusAccept_err (st : Status) : (statusAccept st).err = .ok := rfl
@[simp] theorem statusAccept_ovr (st : Status) : (statusAccept st).ovr = st.ovr := rfl
@[simp] theorem statusOverrun_busy (st : Status) : (statusOverrun st).busy = st.busy := rfl
@[simp] theorem statusOverrun_done (st : Status) : (statusOverrun st).done = st.done := rfl
@[simp] theorem statusOverrun_err (st : Status) : (statusOverrun st).err = st.err := rfl
@[simp] theorem statusOverrun_ovr (st : Status) : (statusOverrun st).ovr = true := rfl
@[simp] theorem statusClear_busy (st : Status) (v : Word) : (statusClear st v).busy = st.busy := rfl

@[simp] theorem andThen_done (t : State) (k : State → CmdResult) : (CmdResult.done t).andThen k = k t := rfl
@[simp] theorem andThen_raised (e : ErrCode) (t : State) (k : State → CmdResult) :
    (CmdResult.raised e t).andThen k = .raised e t := rfl
@[simp] theorem andThen_faulted (f : Fault) (k : State → CmdResult) : (CmdResult.faulted f).andThen k = .faulted f := rfl

@[simp] theorem finishCommand_done (t : State) : finishCommand (.done t) = .next (t.complete .ok) := rfl
@[simp] theorem finishCommand_raised (e : ErrCode) (t : State) :
    finishCommand (.raised e t) = .next (t.complete e) := rfl
@[simp] theorem finishCommand_faulted (f : Fault) : finishCommand (.faulted f) = .fault f := rfl

end Sys2Proof.Machine
end

