-- ==== Sys2Proof/Laws/Commands.lean ====
section
/-! SUPPORT. Everything the shared procedures and the commands can do, said once: a claim about a command cites its cases
lemma and never unfolds it. -/

namespace Sys2Proof.Machine

theorem exec_lenToBytes (s : State) : exec .lenToBytes s = execLenToBytes s := rfl
theorem exec_lenFromBytes (s : State) : exec .lenFromBytes s = execLenFromBytes s := rfl
theorem exec_lsbWrite (s : State) : exec .lsbWrite s = execLsbWrite s := rfl
theorem exec_lsbReadInt (s : State) : exec .lsbReadInt s = execLsbReadInt s := rfl
theorem exec_lsbReadBytes (s : State) : exec .lsbReadBytes s = execLsbReadBytes s := rfl
theorem exec_frameEncode (s : State) : exec .frameEncode s = execFrameEncode s := rfl
theorem exec_frameDecode (s : State) : exec .frameDecode s = execFrameDecode s := rfl

theorem checkConfig_bad {s : State} (k : State → CmdResult) (h : s.pixcap.toNat < s.bufLen.toNat) :
    checkConfig s k = .raised .badConfig s := if_pos h

theorem checkConfig_ok {s : State} (k : State → CmdResult) (h : s.bufLen.toNat ≤ s.pixcap.toNat) :
    checkConfig s k = k s := if_neg (by omega)

/-- Everything LsbWrite can do (41 R130): raise before any access, write the stream, or meet an uninitialised byte. -/
theorem lsbWrite_cases (s : State) (off n : Nat) (d : Nat → Option Byte) :
    (s.bufLen.toNat < off + 8 * n ∧ lsbWrite s off n d = .raised .capacity s) ∨
    (off + 8 * n ≤ s.bufLen.toNat ∧ ∃ bs m, gatherBytes d 0 n = some bs ∧
      writeCarriers s.pix off (bitStream bs) = some m ∧ lsbWrite s off n d = .done (s.setPix m)) ∨
    (off + 8 * n ≤ s.bufLen.toNat ∧ ¬((∀ j < n, (d j).isSome = true) ∧ s.pix.initOn off (8 * n)) ∧
      lsbWrite s off n d = .faulted .uninitRead) := by
  unfold lsbWrite
  split
  · next h => exact .inl ⟨h, rfl⟩
  · next h =>
    refine .inr ?_
    split
    · next hg =>
      refine .inr ⟨by omega, fun hc => ?_, rfl⟩
      have := (gatherBytes_isSome (d := d) (j := 0) (n := n)).2 (by simpa using hc.1)
      simp [hg] at this
    · next bs hg =>
      have hlen := (gatherBytes_some hg).1
      split
      · next hw =>
        refine .inr ⟨by omega, fun hc => ?_, rfl⟩
        have := (writeCarriers_isSome (m := s.pix) (p := off) (xs := bitStream bs)).2 (by simpa [hlen] using hc.2)
        simp [hw] at this
      · next m hw => exact .inl ⟨by omega, bs, m, hg, hw, rfl⟩

/-- LsbWrite succeeds when its window fits and every byte it reads is initialised. -/
theorem lsbWrite_done {s : State} {off n : Nat} {d : Nat → Option Byte} (hfit : off + 8 * n ≤ s.bufLen.toNat)
    (hd : ∀ j < n, (d j).isSome = true) (hp : s.pix.initOn off (8 * n)) :
    ∃ bs m, gatherBytes d 0 n = some bs ∧ writeCarriers s.pix off (bitStream bs) = some m ∧
      lsbWrite s off n d = .done (s.setPix m) := by
  rcases lsbWrite_cases s off n d with ⟨h, -⟩ | ⟨-, h⟩ | ⟨-, h, -⟩
  · omega
  · exact h
  · exact absurd ⟨hd, hp⟩ h

/-- Everything LsbReadBits can do (42 R150). -/
theorem lsbReadBits_cases (s : State) (off count : Nat) (k : List Bool → CmdResult) :
    (s.bufLen.toNat < off + count ∧ lsbReadBits s off count k = .raised .outOfBounds s) ∨
    (off + count ≤ s.bufLen.toNat ∧ ∃ xs, readCarriers s.pix off count = some xs ∧ lsbReadBits s off count k = k xs) ∨
    (off + count ≤ s.bufLen.toNat ∧ ¬s.pix.initOn off count ∧ lsbReadBits s off count k = .faulted .uninitRead) := by
  unfold lsbReadBits
  split
  · next h => exact .inl ⟨h, rfl⟩
  · next h =>
    refine .inr ?_
    split
    · next hr =>
      refine .inr ⟨by omega, fun hc => ?_, rfl⟩
      have := readCarriers_isSome.2 hc
      simp [hr] at this
    · next xs hr => exact .inl ⟨by omega, xs, hr, rfl⟩

/-- LsbReadBits succeeds when its window fits and is initialised. -/
theorem lsbReadBits_ok {s : State} {off count : Nat} (k : List Bool → CmdResult) (hfit : off + count ≤ s.bufLen.toNat)
    (hp : s.pix.initOn off count) :
    ∃ xs, readCarriers s.pix off count = some xs ∧ lsbReadBits s off count k = k xs := by
  rcases lsbReadBits_cases s off count k with ⟨h, -⟩ | ⟨-, h⟩ | ⟨-, h, -⟩
  · omega
  · exact h
  · exact absurd hp h

/-- Everything LSB_WRITE can do (41 R131). -/
theorem execLsbWrite_cases (s : State) :
    (s.pixcap.toNat < s.bufLen.toNat ∧ execLsbWrite s = .next (s.complete .badConfig)) ∨
    (s.bufLen.toNat ≤ s.pixcap.toNat ∧ s.bufLen.toNat < s.bitOffset.toNat + 8 * s.dataLen.toNat ∧
      execLsbWrite s = .next (s.complete .capacity)) ∨
    (s.bufLen.toNat ≤ s.pixcap.toNat ∧ s.bitOffset.toNat + 8 * s.dataLen.toNat ≤ s.bufLen.toNat ∧
      ∃ bs m, gatherBytes (Memory.read s.dat) 0 s.dataLen.toNat = some bs ∧
        writeCarriers s.pix s.bitOffset.toNat (bitStream bs) = some m ∧
        execLsbWrite s = .next ((s.setPix m).complete .ok)) ∨
    (s.bufLen.toNat ≤ s.pixcap.toNat ∧ s.bitOffset.toNat + 8 * s.dataLen.toNat ≤ s.bufLen.toNat ∧
      ¬(s.dat.initOn 0 s.dataLen.toNat ∧ s.pix.initOn s.bitOffset.toNat (8 * s.dataLen.toNat)) ∧
      execLsbWrite s = .fault .uninitRead) := by
  unfold execLsbWrite
  rcases Nat.lt_or_ge s.pixcap.toNat s.bufLen.toNat with h | h
  · exact .inl ⟨h, by rw [checkConfig_bad _ h]; rfl⟩
  · rw [checkConfig_ok _ h]
    rcases lsbWrite_cases s s.bitOffset.toNat s.dataLen.toNat (Memory.read s.dat) with
      ⟨h1, e⟩ | ⟨h1, bs, m, h2, h3, e⟩ | ⟨h1, h2, e⟩ <;> rw [e]
    · exact .inr (.inl ⟨h, h1, rfl⟩)
    · exact .inr (.inr (.inl ⟨h, h1, bs, m, h2, h3, rfl⟩))
    · exact .inr (.inr (.inr ⟨h, h1, by simpa [Memory.initOn] using h2, rfl⟩))

/-- Everything LSB_READ_INT can do (42 R151). -/
theorem execLsbReadInt_cases (s : State) :
    (s.pixcap.toNat < s.bufLen.toNat ∧ execLsbReadInt s = .next (s.complete .badConfig)) ∨
    (s.bufLen.toNat ≤ s.pixcap.toNat ∧ s.bufLen.toNat < s.bitOffset.toNat + 32 ∧
      execLsbReadInt s = .next (s.complete .outOfBounds)) ∨
    (s.bufLen.toNat ≤ s.pixcap.toNat ∧ s.bitOffset.toNat + 32 ≤ s.bufLen.toNat ∧
      ∃ xs, readCarriers s.pix s.bitOffset.toNat 32 = some xs ∧
        execLsbReadInt s = .next ((s.setResult (BitVec.ofNat 32 (bitsValue xs))).complete .ok)) ∨
    (s.bufLen.toNat ≤ s.pixcap.toNat ∧ s.bitOffset.toNat + 32 ≤ s.bufLen.toNat ∧
      ¬s.pix.initOn s.bitOffset.toNat 32 ∧ execLsbReadInt s = .fault .uninitRead) := by
  unfold execLsbReadInt
  rcases Nat.lt_or_ge s.pixcap.toNat s.bufLen.toNat with h | h
  · exact .inl ⟨h, by rw [checkConfig_bad _ h]; rfl⟩
  · rw [checkConfig_ok _ h]
    rcases lsbReadBits_cases s s.bitOffset.toNat 32
      (fun xs => .done (s.setResult (BitVec.ofNat 32 (bitsValue xs)))) with
      ⟨h1, e⟩ | ⟨h1, xs, h2, e⟩ | ⟨h1, h2, e⟩ <;> rw [e]
    · exact .inr (.inl ⟨h, h1, rfl⟩)
    · exact .inr (.inr (.inl ⟨h, h1, xs, h2, rfl⟩))
    · exact .inr (.inr (.inr ⟨h, h1, h2, rfl⟩))

/-- Everything LSB_READ_BYTES can do (42 R152). -/
theorem execLsbReadBytes_cases (s : State) :
    (s.pixcap.toNat < s.bufLen.toNat ∧ execLsbReadBytes s = .next (s.complete .badConfig)) ∨
    (s.bufLen.toNat ≤ s.pixcap.toNat ∧ s.bufLen.toNat < s.bitOffset.toNat + 8 * s.dataLen.toNat ∧
      execLsbReadBytes s = .next (s.complete .outOfBounds)) ∨
    (s.bufLen.toNat ≤ s.pixcap.toNat ∧ s.bitOffset.toNat + 8 * s.dataLen.toNat ≤ s.bufLen.toNat ∧
      ∃ xs, readCarriers s.pix s.bitOffset.toNat (8 * s.dataLen.toNat) = some xs ∧
        execLsbReadBytes s = .next ((s.setDat (Memory.writeSeq s.dat 0 (packBytes xs))).complete .ok)) ∨
    (s.bufLen.toNat ≤ s.pixcap.toNat ∧ s.bitOffset.toNat + 8 * s.dataLen.toNat ≤ s.bufLen.toNat ∧
      ¬s.pix.initOn s.bitOffset.toNat (8 * s.dataLen.toNat) ∧ execLsbReadBytes s = .fault .uninitRead) := by
  unfold execLsbReadBytes
  rcases Nat.lt_or_ge s.pixcap.toNat s.bufLen.toNat with h | h
  · exact .inl ⟨h, by rw [checkConfig_bad _ h]; rfl⟩
  · rw [checkConfig_ok _ h]
    rcases lsbReadBits_cases s s.bitOffset.toNat (8 * s.dataLen.toNat)
      (fun xs => .done (s.setDat (Memory.writeSeq s.dat 0 (packBytes xs)))) with
      ⟨h1, e⟩ | ⟨h1, xs, h2, e⟩ | ⟨h1, h2, e⟩ <;> rw [e]
    · exact .inr (.inl ⟨h, h1, rfl⟩)
    · exact .inr (.inr (.inl ⟨h, h1, xs, h2, rfl⟩))
    · exact .inr (.inr (.inr ⟨h, h1, h2, rfl⟩))

/-- The prefix procedure's byte source yields the word's four bytes. -/
theorem gatherBytes_wordBytes (v : Word) : gatherBytes (listSource (wordBytes v)) 0 4 = some (wordBytes v) := rfl

/-- Everything writing a length prefix can do (43 R170). -/
theorem writeLenPrefix_cases (s : State) (v : Word) :
    (s.bufLen.toNat < 32 ∧ writeLenPrefix s v = .raised .capacity s) ∨
    (32 ≤ s.bufLen.toNat ∧ ∃ m, writeCarriers s.pix 0 (bitStream (wordBytes v)) = some m ∧
      writeLenPrefix s v = .done (s.setPix m)) ∨
    (32 ≤ s.bufLen.toNat ∧ ¬s.pix.initOn 0 32 ∧ writeLenPrefix s v = .faulted .uninitRead) := by
  unfold writeLenPrefix
  rcases lsbWrite_cases s 0 4 (listSource (wordBytes v)) with ⟨h, e⟩ | ⟨h, bs, m, h1, h2, e⟩ | ⟨h, h1, e⟩
  · exact .inl ⟨by omega, e⟩
  · rw [gatherBytes_wordBytes] at h1
    cases h1
    exact .inr (.inl ⟨by omega, m, h2, e⟩)
  · refine .inr (.inr ⟨by omega, fun hp => h1 ⟨?_, by simpa using hp⟩, e⟩)
    intro j hj
    simp [listSource, hj]

/-- Everything the payload stage of FRAME_ENCODE can do when the prefix window fits and is initialised (43 R170, R171). -/
theorem framePayload_cases (s : State) (h32 : 32 ≤ s.bufLen.toNat) (hp : s.pix.initOn 0 32) :
    (s.bufLen.toNat < 32 + 8 * s.dataLen.toNat ∧ ∃ m,
      writeCarriers s.pix 0 (bitStream (wordBytes (Config.freePrefix s.draws))) = some m ∧
      framePayload s = .raised .capacity (s.nextDraw.setPix m)) ∨
    (32 + 8 * s.dataLen.toNat ≤ s.bufLen.toNat ∧ ∃ bs m, gatherBytes (Memory.read s.dat) 0 s.dataLen.toNat = some bs ∧
      writeCarriers s.pix 32 (bitStream bs) = some m ∧ framePayload s = .done (s.setPix m)) ∨
    (32 + 8 * s.dataLen.toNat ≤ s.bufLen.toNat ∧
      ¬(s.dat.initOn 0 s.dataLen.toNat ∧ s.pix.initOn 32 (8 * s.dataLen.toNat)) ∧
      framePayload s = .faulted .uninitRead) := by
  unfold framePayload
  rcases lsbWrite_cases s 32 s.dataLen.toNat (Memory.read s.dat) with ⟨h, e⟩ | ⟨h, bs, m, h1, h2, e⟩ | ⟨h, h1, e⟩ <;>
    rw [e]
  · refine .inl ⟨h, ?_⟩
    show ∃ m, _ ∧ (writeLenPrefix s.nextDraw (Config.freePrefix s.draws)).andThen _ = _
    rcases writeLenPrefix_cases s.nextDraw (Config.freePrefix s.draws) with
      ⟨h1, -⟩ | ⟨-, m, h1, e1⟩ | ⟨-, h1, -⟩
    · exact absurd h1 (by simpa using h32)
    · exact ⟨m, h1, by rw [e1]; rfl⟩
    · exact absurd hp h1
  · exact .inr (.inl ⟨h, bs, m, h1, h2, rfl⟩)
  · exact .inr (.inr ⟨h, by simpa [Memory.initOn] using h1, rfl⟩)

/-- Everything FRAME_ENCODE can do (43 R170, R171). -/
theorem execFrameEncode_cases (s : State) :
    (s.pixcap.toNat < s.bufLen.toNat ∧ execFrameEncode s = .next (s.complete .badConfig)) ∨
    (s.bufLen.toNat ≤ s.pixcap.toNat ∧ s.bufLen.toNat < 32 ∧ execFrameEncode s = .next (s.complete .capacity)) ∨
    (s.bufLen.toNat ≤ s.pixcap.toNat ∧ 32 ≤ s.bufLen.toNat ∧ s.bufLen.toNat < 32 + 8 * s.dataLen.toNat ∧ ∃ m m',
      writeCarriers s.pix 0 (bitStream (wordBytes s.dataLen)) = some m ∧
      writeCarriers m 0 (bitStream (wordBytes (Config.freePrefix s.draws))) = some m' ∧
      execFrameEncode s = .next ((s.nextDraw.setPix m').complete .capacity)) ∨
    (s.bufLen.toNat ≤ s.pixcap.toNat ∧ 32 + 8 * s.dataLen.toNat ≤ s.bufLen.toNat ∧ ∃ m bs m',
      writeCarriers s.pix 0 (bitStream (wordBytes s.dataLen)) = some m ∧
      gatherBytes (Memory.read s.dat) 0 s.dataLen.toNat = some bs ∧
      writeCarriers m 32 (bitStream bs) = some m' ∧
      execFrameEncode s = .next ((s.setPix m').complete .ok)) ∨
    (s.bufLen.toNat ≤ s.pixcap.toNat ∧ 32 ≤ s.bufLen.toNat ∧
      ¬(s.pix.initOn 0 32 ∧ (s.bufLen.toNat < 32 + 8 * s.dataLen.toNat ∨
        s.dat.initOn 0 s.dataLen.toNat ∧ s.pix.initOn 32 (8 * s.dataLen.toNat))) ∧
      execFrameEncode s = .fault .uninitRead) := by
  unfold execFrameEncode
  rcases Nat.lt_or_ge s.pixcap.toNat s.bufLen.toNat with h | h
  · exact .inl ⟨h, by rw [checkConfig_bad _ h]; rfl⟩
  · rw [checkConfig_ok _ h]
    rcases writeLenPrefix_cases s s.dataLen with ⟨h1, e⟩ | ⟨h1, m, h2, e⟩ | ⟨h1, h2, e⟩ <;> rw [e]
    · exact .inr (.inl ⟨h, h1, rfl⟩)
    · have hu := writeCarriers_sameUpperBits h2
      have hi : s.pix.initOn 0 32 := by
        simpa using writeCarriers_isSome.1 (show (writeCarriers s.pix 0 (bitStream (wordBytes s.dataLen))).isSome = true by
          simp [h2])
      rw [andThen_done]
      rcases framePayload_cases (s.setPix m) h1 (initOn_of_sameUpperBits hu hi) with
        ⟨h3, m', h4, e⟩ | ⟨h3, bs, m', h4, h5, e⟩ | ⟨h3, h4, e⟩ <;> rw [e]
      · exact .inr (.inr (.inl ⟨h, h1, h3, m, m', h2, h4, rfl⟩))
      · exact .inr (.inr (.inr (.inl ⟨h, h3, m, bs, m', h2, h4, h5, rfl⟩)))
      · refine .inr (.inr (.inr (.inr ⟨h, h1, fun hc => ?_, rfl⟩)))
        rcases hc.2 with h6 | h6
        · exact absurd h6 (by simpa using h3)
        · exact h4 ⟨h6.1, initOn_of_sameUpperBits hu h6.2⟩
    · exact .inr (.inr (.inr (.inr ⟨h, h1, fun hc => h2 hc.1, rfl⟩)))

/-- Everything FRAME_DECODE can do (43 R172). -/
theorem execFrameDecode_cases (s : State) :
    (s.pixcap.toNat < s.bufLen.toNat ∧ execFrameDecode s = .next (s.complete .badConfig)) ∨
    (s.bufLen.toNat ≤ s.pixcap.toNat ∧ s.bufLen.toNat < 32 ∧ execFrameDecode s = .next (s.complete .outOfBounds)) ∨
    (s.bufLen.toNat ≤ s.pixcap.toNat ∧ 32 ≤ s.bufLen.toNat ∧ ¬s.pix.initOn 0 32 ∧
      execFrameDecode s = .fault .uninitRead) ∨
    (s.bufLen.toNat ≤ s.pixcap.toNat ∧ 32 ≤ s.bufLen.toNat ∧ ∃ xs, readCarriers s.pix 0 32 = some xs ∧
      ((s.bufLen.toNat < 32 + 8 * bitsValue xs ∧ execFrameDecode s = .next (s.complete .outOfBounds)) ∨
       (32 + 8 * bitsValue xs ≤ s.bufLen.toNat ∧ ∃ ys, readCarriers s.pix 32 (8 * bitsValue xs) = some ys ∧
         execFrameDecode s = .next (((s.setDat (Memory.writeSeq s.dat 0 (packBytes ys))).setResult
           (BitVec.ofNat 32 (bitsValue xs))).complete .ok)) ∨
       (32 + 8 * bitsValue xs ≤ s.bufLen.toNat ∧ ¬s.pix.initOn 32 (8 * bitsValue xs) ∧
         execFrameDecode s = .fault .uninitRead))) := by
  unfold execFrameDecode
  rcases Nat.lt_or_ge s.pixcap.toNat s.bufLen.toNat with h | h
  · exact .inl ⟨h, by rw [checkConfig_bad _ h]; rfl⟩
  · rw [checkConfig_ok _ h]
    rcases lsbReadBits_cases s 0 32 (fun xs => lsbReadBits s 32 (8 * bitsValue xs) fun ys =>
        .done ((s.setDat (Memory.writeSeq s.dat 0 (packBytes ys))).setResult (BitVec.ofNat 32 (bitsValue xs)))) with
      ⟨h1, e⟩ | ⟨h1, xs, h2, e⟩ | ⟨h1, h2, e⟩ <;> rw [e]
    · exact .inr (.inl ⟨h, by omega, rfl⟩)
    · refine .inr (.inr (.inr ⟨h, by omega, xs, h2, ?_⟩))
      rcases lsbReadBits_cases s 32 (8 * bitsValue xs) (fun ys =>
          .done ((s.setDat (Memory.writeSeq s.dat 0 (packBytes ys))).setResult (BitVec.ofNat 32 (bitsValue xs)))) with
        ⟨h3, e⟩ | ⟨h3, ys, h4, e⟩ | ⟨h3, h4, e⟩ <;> rw [e]
      · exact .inl ⟨h3, rfl⟩
      · exact .inr (.inl ⟨h3, ys, h4, rfl⟩)
      · exact .inr (.inr ⟨h3, h4, rfl⟩)
    · exact .inr (.inr (.inl ⟨h, by omega, h2, rfl⟩))

/-- Everything LEN_TO_BYTES can do (40 R112). -/
theorem execLenToBytes_cases (s : State) :
    (∃ e, toBytes32 (lenOperand s) = .error e ∧ execLenToBytes s = .next (s.complete e)) ∨
    (∃ bs, toBytes32 (lenOperand s) = .ok bs ∧ execLenToBytes s = .next ((s.setLenBytes (packLenBytes bs)).complete .ok)) := by
  unfold execLenToBytes
  cases h : toBytes32 (lenOperand s) with
  | error e => exact .inl ⟨e, rfl, rfl⟩
  | ok bs => exact .inr ⟨bs, rfl, rfl⟩

/-- The four bytes of LEN_BYTES, as FromBytes32 takes them (40 R113). -/
def lenBytesValue (s : State) : Nat :=
  fromBytes32 (s.lenBytes.extractLsb' 24 8) (s.lenBytes.extractLsb' 16 8) (s.lenBytes.extractLsb' 8 8)
    (s.lenBytes.extractLsb' 0 8)

/-- LEN_FROM_BYTES always completes (40 R113). -/
theorem execLenFromBytes_next (s : State) :
    execLenFromBytes s = .next ((s.setResult (BitVec.ofNat 32 (lenBytesValue s))).complete .ok) := by
  unfold execLenFromBytes lenBytesValue
  rw [finishCommand_done]

/-- The value that 32 carriers spell, as a 32-bit number (42 R151). -/
theorem readCarriers_spells {m : Memory} {off : Nat} {xs : List Bool} (h : readCarriers m off 32 = some xs) :
    spells m off (BitVec.ofNat 32 (bitsValue xs)) ∧ (BitVec.ofNat 32 (bitsValue xs)).toNat = bitsValue xs := by
  have hl := (readCarriers_some h).1
  refine ⟨fun i hi => ?_, ?_⟩
  · have h1 := readCarriers_bit h hi
    rw [bitsValue_word_bit xs hl hi]
    rw [List.getElem?_eq_getElem (by omega)] at h1
    exact Option.some.inj h1
  · have := bitsValue_lt xs
    rw [hl] at this
    simpa [BitVec.toNat_ofNat] using Nat.mod_eq_of_lt this

/-- Two words that the same carriers spell are equal. -/
theorem spells_unique {m : Memory} {off : Nat} {v w : Word} (hv : spells m off v) (hw : spells m off w) : v = w := by
  refine BitVec.eq_of_getLsbD_eq fun i hi => ?_
  have h1 := hv (31 - i) (by omega)
  have h2 := hw (31 - i) (by omega)
  rw [show 31 - (31 - i) = i by omega] at h1 h2
  rw [h1, h2]

end Sys2Proof.Machine
end

