-- ==== Sys2Proof/Laws/PerInstr.lean ====
section
/-! SUPPORT. Facts about every command as syntax, one lemma per constructor. -/

namespace Sys2Proof.Laws.CommandWord

/-- The command word of 30 R90 and R91: it is well formed, its RSV field is zero, its OP field is the command's opcode, and
that opcode is one of 1 .. 7. -/
def Statement (i : Instr) : Prop :=
  i.wellFormed = true ∧ rsvField (encode i) = 0#28 ∧ opField (encode i) = opCode i ∧
    1 ≤ (opCode i).toNat ∧ (opCode i).toNat ≤ 7

theorem lenToBytes : Statement .lenToBytes := by unfold Statement; decide
theorem lenFromBytes : Statement .lenFromBytes := by unfold Statement; decide
theorem lsbWrite : Statement .lsbWrite := by unfold Statement; decide
theorem lsbReadInt : Statement .lsbReadInt := by unfold Statement; decide
theorem lsbReadBytes : Statement .lsbReadBytes := by unfold Statement; decide
theorem frameEncode : Statement .frameEncode := by unfold Statement; decide
theorem frameDecode : Statement .frameDecode := by unfold Statement; decide

end Sys2Proof.Laws.CommandWord
end

