-- ==== Sys2Proof/Laws/Step.lean ====
section
/-! SUPPORT. Everything a host transaction, a turn and a step can do, said once. -/

namespace Sys2Proof.Machine

/-- The registers a host write stores to, and their fields; every other write while BUSY = 0 changes nothing (10 R36, R37). -/
theorem csrStore_eq (s : State) (v : Word) (r : Csr) :
    csrStore s v r = s ∨ (r = .cmd ∧ csrStore s v r = s.acceptCommand v) ∨
    (r = .status ∧ csrStore s v r = { s with status := statusClear s.status v }) ∨
    csrStore s v r = { s with bufLen := v } ∨ csrStore s v r = { s with bitOffset := v } ∨
    csrStore s v r = { s with dataLen := v } ∨ csrStore s v r = { s with lenInLo := v } ∨
    csrStore s v r = { s with lenInHi := v } ∨ csrStore s v r = { s with lenBytes := v } := by
  cases r <;> simp [csrStore]

/-- The offset determines the register (10_state.md section 2). -/
theorem csrAt_some {off : Nat} {r : Csr} (h : csrAt off = some r) : off = csrOffset r := by
  unfold csrAt at h
  split at h <;> simp_all <;> subst h <;> rfl

@[simp] theorem csrAt_csrOffset (r : Csr) : csrAt (csrOffset r) = some r := by cases r <;> rfl

/-- Everything a CSR write can do (10 R27, R29, R36, R37). -/
theorem csrWrite_cases (s : State) (off : Nat) (v : Word) :
    (s.status.busy = true ∧ csrWrite s off v = { s with status := statusOverrun s.status }) ∨
    (s.status.busy = false ∧
      (csrWrite s off v = s ∨ (off = 0x0C ∧ csrWrite s off v = s.acceptCommand v) ∨
       (off = 0x10 ∧ csrWrite s off v = { s with status := statusClear s.status v }) ∨
       csrWrite s off v = { s with bufLen := v } ∨ csrWrite s off v = { s with bitOffset := v } ∨
       csrWrite s off v = { s with dataLen := v } ∨ csrWrite s off v = { s with lenInLo := v } ∨
       csrWrite s off v = { s with lenInHi := v } ∨ csrWrite s off v = { s with lenBytes := v })) := by
  unfold csrWrite
  cases hb : s.status.busy
  · refine .inr ⟨rfl, ?_⟩
    simp only [Bool.false_eq_true, if_false]
    cases hr : csrAt off with
    | none => exact .inl rfl
    | some r =>
      have ho := csrAt_some hr
      rcases csrStore_eq s v r with h | ⟨e, h⟩ | ⟨e, h⟩ | h
      · exact .inl h
      · subst e; exact .inr (.inl ⟨ho, h⟩)
      · subst e; exact .inr (.inr (.inl ⟨ho, h⟩))
      · exact .inr (.inr (.inr h))
  · exact .inl ⟨rfl, rfl⟩

/-- Everything a host write that completes can do (20 R62, R63, R65). -/
theorem hostWrite_ok {s u : State} {sp : Space} {a w : Nat} {d : Word} (h : hostWrite s sp a w d = .ok u) :
    (sp = .csr ∧ w = 4 ∧ a % 4 = 0 ∧ a ≤ 0xFC ∧ u = csrWrite s a d) ∨
    (sp = .dat ∧ w = 1 ∧ a < s.datcap.toNat ∧ s.status.busy = false ∧
      u = s.setDat (Memory.write s.dat a (d.extractLsb' 0 8))) ∨
    (sp = .pix ∧ w = 1 ∧ a < s.pixcap.toNat ∧ s.status.busy = false ∧
      u = s.setPix (Memory.write s.pix a (d.extractLsb' 0 8))) := by
  unfold hostWrite at h
  split at h
  · next hl =>
    cases sp with
    | csr =>
      simp only [State.legal, decide_eq_true_eq] at hl
      cases h
      exact .inl ⟨rfl, hl.1, hl.2.1, hl.2.2, rfl⟩
    | dat =>
      simp only [State.legal, decide_eq_true_eq] at hl
      simp only [writeByte] at h
      split at h
      · cases h
      · next hb => cases h; exact .inr (.inl ⟨rfl, hl.1, hl.2, by simpa using hb, rfl⟩)
    | pix =>
      simp only [State.legal, decide_eq_true_eq] at hl
      simp only [writeByte] at h
      split at h
      · cases h
      · next hb => cases h; exact .inr (.inr ⟨rfl, hl.1, hl.2, by simpa using hb, rfl⟩)
  · cases h

/-- Everything the host's turn can do when it has a next state (30 R98). -/
theorem hostStep_next {s t : State} (h : hostStep s = .next t) :
    (∃ p n, t = { s with prog := p, names := n }) ∨
    (∃ sp a w d rest u, s.prog = .write sp a w d :: rest ∧ hostWrite s sp a w d = .ok u ∧ t = { u with prog := rest }) := by
  unfold hostStep at h
  split at h
  · cases h; exact .inl ⟨s.prog, s.names, rfl⟩
  · split at h
    · cases h
    · cases h; exact .inl ⟨_, _, rfl⟩
  · next sp a w d rest hp =>
    split at h
    · cases h
    · next u hu => cases h; exact .inr ⟨sp, a, w, d, rest, u, hp, hu, rfl⟩
  · split at h
    · cases h
    · split at h
      · cases h; exact .inl ⟨s.prog, s.names, rfl⟩
      · cases h; exact .inl ⟨_, s.names, rfl⟩

theorem hostStep_not_refused (s : State) (r : Refusal) : hostStep s ≠ .refused r := by
  intro h
  unfold hostStep at h
  repeat' split at h
  all_goals cases h

/-- The commands that access PIX: OP 3 .. 7 (60 R196). -/
abbrev accessesPix (i : Instr) : Prop :=
  i = .lsbWrite ∨ i = .lsbReadInt ∨ i = .lsbReadBytes ∨ i = .frameEncode ∨ i = .frameDecode

/-- The errors a command can end in with nothing written but STATUS (60 R197, R198). -/
def cleanError (i : Instr) (s : State) : ErrCode → Prop
  | .ok => False
  | .range => i = .lenToBytes
  | .capacity => i = .lsbWrite ∨ i = .frameEncode ∧ s.bufLen.toNat < 32
  | .outOfBounds => i = .lsbReadInt ∨ i = .lsbReadBytes ∨ i = .frameDecode
  | .illegalCmd => False
  | .badConfig => accessesPix i ∧ s.pixcap.toNat < s.bufLen.toNat

/-- Everything a command with a next state can have done: an error with only STATUS written, or its own writes with what its
checks ensure. Frames and invariants over all commands follow from it. -/
theorem exec_next {i : Instr} {s t : State} (h : exec i s = .next t) :
    (∃ e, cleanError i s e ∧ t = s.complete e) ∨
    (i = .lenToBytes ∧ ∃ v, t = (s.setLenBytes v).complete .ok) ∨
    (i = .lenFromBytes ∧ t = (s.setResult (BitVec.ofNat 32 (lenBytesValue s))).complete .ok) ∨
    (i = .lsbReadInt ∧ ∃ v, t = (s.setResult v).complete .ok) ∨
    (i = .lsbWrite ∧ s.bufLen.toNat ≤ s.pixcap.toNat ∧ s.bitOffset.toNat + 8 * s.dataLen.toNat ≤ s.bufLen.toNat ∧
      ∃ bs m, bs.length = s.dataLen.toNat ∧ writeCarriers s.pix s.bitOffset.toNat (bitStream bs) = some m ∧
        t = (s.setPix m).complete .ok) ∨
    (i = .lsbReadBytes ∧ s.bufLen.toNat ≤ s.pixcap.toNat ∧ s.bitOffset.toNat + 8 * s.dataLen.toNat ≤ s.bufLen.toNat ∧
      ∃ bs : List Byte, bs.length = s.dataLen.toNat ∧ t = (s.setDat (Memory.writeSeq s.dat 0 bs)).complete .ok) ∨
    (i = .frameEncode ∧ s.bufLen.toNat ≤ s.pixcap.toNat ∧ 32 + 8 * s.dataLen.toNat ≤ s.bufLen.toNat ∧
      ∃ m bs m', bs.length = s.dataLen.toNat ∧ writeCarriers s.pix 0 (bitStream (wordBytes s.dataLen)) = some m ∧
        writeCarriers m 32 (bitStream bs) = some m' ∧ t = (s.setPix m').complete .ok) ∨
    (i = .frameEncode ∧ s.bufLen.toNat ≤ s.pixcap.toNat ∧ 32 ≤ s.bufLen.toNat ∧
      s.bufLen.toNat < 32 + 8 * s.dataLen.toNat ∧ ∃ v w m m',
        writeCarriers s.pix 0 (bitStream (wordBytes v)) = some m ∧
        writeCarriers m 0 (bitStream (wordBytes w)) = some m' ∧ t = (s.nextDraw.setPix m').complete .capacity) ∨
    (i = .frameDecode ∧ s.bufLen.toNat ≤ s.pixcap.toNat ∧ ∃ (L : Word) (bs : List Byte), spells s.pix 0 L ∧
      32 + 8 * L.toNat ≤ s.bufLen.toNat ∧ bs.length = L.toNat ∧
      t = ((s.setDat (Memory.writeSeq s.dat 0 bs)).setResult L).complete .ok) := by
  cases i with
  | lenToBytes =>
    rw [exec_lenToBytes] at h
    rcases execLenToBytes_cases s with ⟨e, he, h'⟩ | ⟨bs, -, h'⟩ <;> rw [h'] at h <;> cases h
    · have : e = .range := by
        unfold toBytes32 at he
        split at he <;> cases he
        rfl
      subst this
      exact .inl ⟨.range, rfl, rfl⟩
    · exact .inr (.inl ⟨rfl, _, rfl⟩)
  | lenFromBytes =>
    rw [exec_lenFromBytes, execLenFromBytes_next] at h
    cases h
    exact .inr (.inr (.inl ⟨rfl, rfl⟩))
  | lsbWrite =>
    rw [exec_lsbWrite] at h
    rcases execLsbWrite_cases s with ⟨hc, h'⟩ | ⟨-, -, h'⟩ | ⟨hc, hf, bs, m, hg, hw, h'⟩ | ⟨-, -, -, h'⟩ <;>
      rw [h'] at h <;> cases h
    · exact .inl ⟨.badConfig, ⟨.inl rfl, hc⟩, rfl⟩
    · exact .inl ⟨.capacity, .inl rfl, rfl⟩
    · exact .inr (.inr (.inr (.inr (.inl ⟨rfl, hc, hf, bs, m, (gatherBytes_some hg).1, hw, rfl⟩))))
  | lsbReadInt =>
    rw [exec_lsbReadInt] at h
    rcases execLsbReadInt_cases s with ⟨hc, h'⟩ | ⟨-, -, h'⟩ | ⟨-, -, xs, -, h'⟩ | ⟨-, -, -, h'⟩ <;>
      rw [h'] at h <;> cases h
    · exact .inl ⟨.badConfig, ⟨.inr (.inl rfl), hc⟩, rfl⟩
    · exact .inl ⟨.outOfBounds, .inl rfl, rfl⟩
    · exact .inr (.inr (.inr (.inl ⟨rfl, _, rfl⟩)))
  | lsbReadBytes =>
    rw [exec_lsbReadBytes] at h
    rcases execLsbReadBytes_cases s with ⟨hc, h'⟩ | ⟨-, -, h'⟩ | ⟨hc, hf, xs, hr, h'⟩ | ⟨-, -, -, h'⟩ <;>
      rw [h'] at h <;> cases h
    · exact .inl ⟨.badConfig, ⟨.inr (.inr (.inl rfl)), hc⟩, rfl⟩
    · exact .inl ⟨.outOfBounds, .inr (.inl rfl), rfl⟩
    · exact .inr (.inr (.inr (.inr (.inr (.inl
        ⟨rfl, hc, hf, _, (bitStream_packBytes _ xs (readCarriers_some hr).1).1, rfl⟩)))))
  | frameEncode =>
    rw [exec_frameEncode] at h
    rcases execFrameEncode_cases s with ⟨hc, h'⟩ | ⟨-, h3, h'⟩ | ⟨hc, h3, hf, m, m', h1, h2, h'⟩ |
      ⟨hc, hf, m, bs, m', h1, hg, h2, h'⟩ | ⟨-, -, -, h'⟩ <;> rw [h'] at h <;> cases h
    · exact .inl ⟨.badConfig, ⟨.inr (.inr (.inr (.inl rfl))), hc⟩, rfl⟩
    · exact .inl ⟨.capacity, .inr ⟨rfl, h3⟩, rfl⟩
    · exact .inr (.inr (.inr (.inr (.inr (.inr (.inr (.inl ⟨rfl, hc, h3, hf, _, _, m, m', h1, h2, rfl⟩)))))))
    · exact .inr (.inr (.inr (.inr (.inr (.inr (.inl
        ⟨rfl, hc, hf, m, bs, m', (gatherBytes_some hg).1, h1, h2, rfl⟩))))))
  | frameDecode =>
    rw [exec_frameDecode] at h
    rcases execFrameDecode_cases s with ⟨hc, h'⟩ | ⟨-, -, h'⟩ | ⟨-, -, -, h'⟩ |
      ⟨hc, -, xs, hr, ⟨-, h'⟩ | ⟨hf, ys, hy, h'⟩ | ⟨-, -, h'⟩⟩ <;> rw [h'] at h <;> cases h
    · exact .inl ⟨.badConfig, ⟨.inr (.inr (.inr (.inr rfl))), hc⟩, rfl⟩
    · exact .inl ⟨.outOfBounds, .inr (.inr rfl), rfl⟩
    · exact .inl ⟨.outOfBounds, .inr (.inr rfl), rfl⟩
    · obtain ⟨hs, hv⟩ := readCarriers_spells hr
      refine .inr (.inr (.inr (.inr (.inr (.inr (.inr (.inr ⟨rfl, hc, _, packBytes ys, hs, by omega, ?_, rfl⟩)))))))
      rw [hv]
      exact (bitStream_packBytes _ ys (readCarriers_some hy).1).1

/-- A command ends in a next state with its completion flags, or in UNINIT_READ (30 R99). -/
theorem exec_outcome (i : Instr) (s : State) :
    (∃ t, exec i s = .next t ∧ t.status.busy = false ∧ t.status.done = true ∧ t.status.ovr = s.status.ovr) ∨
    exec i s = .fault .uninitRead := by
  cases i with
  | lenToBytes =>
    rcases execLenToBytes_cases s with ⟨e, -, h⟩ | ⟨bs, -, h⟩ <;> exact .inl ⟨_, h, rfl, rfl, rfl⟩
  | lenFromBytes => exact .inl ⟨_, execLenFromBytes_next s, rfl, rfl, rfl⟩
  | lsbWrite =>
    rcases execLsbWrite_cases s with ⟨-, h⟩ | ⟨-, -, h⟩ | ⟨-, -, bs, m, -, -, h⟩ | ⟨-, -, -, h⟩ <;>
      first | exact .inr h | exact .inl ⟨_, h, rfl, rfl, rfl⟩
  | lsbReadInt =>
    rcases execLsbReadInt_cases s with ⟨-, h⟩ | ⟨-, -, h⟩ | ⟨-, -, xs, -, h⟩ | ⟨-, -, -, h⟩ <;>
      first | exact .inr h | exact .inl ⟨_, h, rfl, rfl, rfl⟩
  | lsbReadBytes =>
    rcases execLsbReadBytes_cases s with ⟨-, h⟩ | ⟨-, -, h⟩ | ⟨-, -, xs, -, h⟩ | ⟨-, -, -, h⟩ <;>
      first | exact .inr h | exact .inl ⟨_, h, rfl, rfl, rfl⟩
  | frameEncode =>
    rcases execFrameEncode_cases s with ⟨-, h⟩ | ⟨-, -, h⟩ | ⟨-, -, -, m, m', -, -, h⟩ | ⟨-, -, m, bs, m', -, -, -, h⟩ |
      ⟨-, -, -, h⟩ <;> first | exact .inr h | exact .inl ⟨_, h, rfl, rfl, rfl⟩
  | frameDecode =>
    rcases execFrameDecode_cases s with ⟨-, h⟩ | ⟨-, -, h⟩ | ⟨-, -, -, h⟩ | ⟨-, -, xs, -, ⟨-, h⟩ | ⟨-, ys, -, h⟩ | ⟨-, -, h⟩⟩ <;>
      first | exact .inr h | exact .inl ⟨_, h, rfl, rfl, rfl⟩

/-- The core agent's step runs the decoded command, or completes with ILLEGAL_CMD. -/
theorem coreStep_cases (s : State) :
    (∃ i, decode s.cmd = .instr i ∧ coreStep s = exec i s) ∨
    (∃ w, decode s.cmd = .illegal w ∧ coreStep s = .next (s.complete .illegalCmd)) := by
  unfold coreStep
  cases h : decode s.cmd with
  | instr i => exact .inl ⟨i, rfl, rfl⟩
  | illegal w => exact .inr ⟨w, rfl, rfl⟩

/-- Everything a step with a next state can do (log 3): the configuration is valid, and the step is the core agent's, an
idle turn, the host's, or a reset, on the state with the turn taken. -/
theorem step_next {s t : State} (h : step s = .next t) :
    Config.capsValid s.pixcap s.datcap = true ∧
    ((s.status.busy = true ∧ coreStep { s with sched := s.sched.tail } = .next t) ∨
     (s.status.busy = false ∧ t = { s with sched := s.sched.tail }) ∨
     (hostStep { s with sched := s.sched.tail } = .next t) ∨
     (s.sched.head? = some .reset ∧ t = resetEvent { s with sched := s.sched.tail })) := by
  unfold step guardedTurn at h
  split at h
  · next hc =>
    refine ⟨hc, ?_⟩
    unfold nextTurn at h
    cases hs : s.sched with
    | nil =>
      have e : s = { s with sched := [] } := by cases s; simp_all
      simp only [hs] at h
      cases hb : s.status.busy
      · simp only [hb, takeTurn] at h
        exact .inr (.inr (.inl (by rw [e] at h; simpa using h)))
      · simp only [hb, takeTurn] at h
        exact .inl ⟨rfl, by rw [e] at h; simpa using h⟩
    | cons turn rest =>
      simp only [hs] at h
      cases turn with
      | core =>
        simp only [takeTurn] at h
        split at h
        · next hb => exact .inl ⟨hb, h⟩
        · next hb => cases h; exact .inr (.inl ⟨by simpa using hb, rfl⟩)
      | host => exact .inr (.inr (.inl h))
      | reset => cases h; exact .inr (.inr (.inr ⟨rfl, rfl⟩))
  · cases h

@[simp] theorem run_zero (s : State) : run 0 s = .next s := rfl

/-- k + 1 steps are one step and then k, unless the first one stops. -/
theorem run_succ (k : Nat) (s : State) :
    run (k + 1) s = match step s with
      | .next t => run k t
      | .fault f => .fault f
      | .refused r => .refused r := by
  have h := Host.Core.run.eq_2 Sys2Proof.core s k
  have e : Host.Core.step Sys2Proof.core s = step s := rfl
  rw [e] at h
  refine Eq.trans h ?_
  cases step s <;> rfl

end Sys2Proof.Machine
end

