-- ==== Sys2Proof/Tests/Slice0.lean ====
section
/-! SUPPORT. Small tests: the checks of WellFormed and of the host port, decoding, at most two one-step tests a command, and for
every statement with hypotheses a concrete state that meets them. Expected values are those of spec/95_test_vectors.md
(S, T and P numbers) or of the rule named. -/

namespace Sys2Proof.Tests

open Sys2Proof.Machine

/-! ## Helpers -/

/-- The next state of an outcome, if it is one and satisfies p. -/
def nextWith (o : Host.Outcome State Fault Refusal) (p : State → Bool) : Bool :=
  match o with
  | .next t => p t
  | _ => false

/-- The model fault of an outcome, if it is one. -/
def faultOf (o : Host.Outcome State Fault Refusal) : Option Fault :=
  match o with
  | .fault f => some f
  | _ => none

theorem nextWith_spec {o : Host.Outcome State Fault Refusal} {p : State → Bool} (h : nextWith o p = true) :
    ∃ t, o = .next t ∧ p t = true := by
  cases o with
  | next t => exact ⟨t, rfl, h⟩
  | fault f => cases h
  | refused r => cases h

/-- Memory bytes from address a. -/
def bytesAt : Nat → List Nat → Memory
  | _, [] => []
  | a, b :: bs => (a, BitVec.ofNat 8 b) :: bytesAt (a + 1) bs

/-- n bytes b from address 0. -/
def filled (n b : Nat) : Memory := bytesAt 0 (List.replicate n b)

/-- State.reset with BUF_LEN, BIT_OFFSET and DATA_LEN, PIX and DAT loaded. -/
def loaded (bufLen bitOffset dataLen : Nat) (pix dat : Memory) : State :=
  { State.reset with bufLen := BitVec.ofNat 32 bufLen, bitOffset := BitVec.ofNat 32 bitOffset,
                     dataLen := BitVec.ofNat 32 dataLen, pix := pix, dat := dat }

/-- The PIX of T20. -/
def pixT20 : Memory :=
  bytesAt 0 [0x00, 0x11, 0x22, 0x33, 0x44, 0x55, 0x66, 0x77, 0x88, 0x99, 0xAA, 0xBB, 0xCC, 0xDD, 0xEE, 0xFF]

/-- The PIX of T60 after FRAME_ENCODE. -/
def pixT60 : Memory := bytesAt 0 (List.replicate 31 0 ++ [1] ++ [1, 0, 1, 0, 0, 1, 0, 1])

/-- State.reset with a pending command word. -/
def pending (w : Word) : State := { State.reset with cmd := w, status := ⟨true, false, .ok, false⟩ }

/-! ## Well-formedness, and the ill-formed terms it refuses -/

theorem test_caps_accept_least_datcap : Config.capsValid 64#32 8#32 = true := by decide
theorem test_caps_refuse_small_datcap : Config.capsValid 64#32 7#32 = false := by decide
theorem test_every_command_is_well_formed :
    [Instr.lenToBytes, .lenFromBytes, .lsbWrite, .lsbReadInt, .lsbReadBytes, .frameEncode, .frameDecode].all
      Instr.wellFormed = true := by decide
theorem test_legal_refuses_csr_width : State.reset.legal .csr 0x00 1 = false := by decide
theorem test_legal_refuses_csr_alignment : State.reset.legal .csr 0x02 4 = false := by decide
theorem test_legal_refuses_csr_past_end : State.reset.legal .csr 0x100 4 = false := by decide
theorem test_legal_refuses_dat_past_capacity : State.reset.legal .dat 8 1 = false := by decide
theorem test_legal_refuses_pix_width : State.reset.legal .pix 0 4 = false := by decide
theorem test_legal_refuses_pix_past_capacity : State.reset.legal .pix 64 1 = false := by decide
theorem test_legal_accepts_last_slots :
    State.reset.legal .csr 0xFC 4 = true ∧ State.reset.legal .dat 7 1 = true ∧ State.reset.legal .pix 63 1 = true := by
  decide

/-! ## Decoding: words written out from 30 R90 and R91 -/

theorem test_decode_len_to_bytes : decode 0b00000000000000000000000000000001#32 = .instr .lenToBytes := by decide
theorem test_decode_len_from_bytes : decode 0b00000000000000000000000000000010#32 = .instr .lenFromBytes := by decide
theorem test_decode_lsb_write : decode 0b00000000000000000000000000000011#32 = .instr .lsbWrite := by decide
theorem test_decode_lsb_read_int : decode 0b00000000000000000000000000000100#32 = .instr .lsbReadInt := by decide
theorem test_decode_lsb_read_bytes : decode 0b00000000000000000000000000000101#32 = .instr .lsbReadBytes := by decide
theorem test_decode_frame_encode : decode 0b00000000000000000000000000000110#32 = .instr .frameEncode := by decide
theorem test_decode_frame_decode : decode 0b00000000000000000000000000000111#32 = .instr .frameDecode := by decide
theorem test_decode_rejects_zero : decode 0x00000000#32 = .illegal .opZero := by decide
theorem test_decode_rejects_eight_and_fifteen :
    decode 0x00000008#32 = .illegal .opUnassigned ∧ decode 0x0000000F#32 = .illegal .opUnassigned := by decide
theorem test_decode_rejects_reserved_bits :
    decode 0x00000011#32 = .illegal .reservedBits ∧ decode 0x80000006#32 = .illegal .reservedBits := by decide
theorem test_table_word_decodes : decodeTableWord 32 7 = some .frameDecode ∧ decodeTableWord 32 8 = none := by decide

/-! ## One step of each command -/

/-- T4. -/
theorem test_len_to_bytes_T4 :
    nextWith (exec .lenToBytes { State.reset with lenInLo := 0x12345678#32 })
      (fun t => t.lenBytes == 0x12345678#32 && statusWord t.status == 0x2#32) = true := by decide

/-- T6: n = -1. -/
theorem test_len_to_bytes_T6 :
    nextWith (exec .lenToBytes
        { State.reset with lenInHi := 0xFFFFFFFF#32, lenInLo := 0xFFFFFFFF#32, lenBytes := 0x12345678#32 })
      (fun t => t.lenBytes == 0x12345678#32 && statusWord t.status == 0x12#32) = true := by decide

/-- T10. -/
theorem test_len_from_bytes_T10 :
    nextWith (exec .lenFromBytes { State.reset with lenBytes := 0x000003E8#32 })
      (fun t => t.result == 1000#32 && statusWord t.status == 0x2#32) = true := by decide

/-- T13: BUF_LEN > PIX_CAP does not matter to the codec. -/
theorem test_len_from_bytes_T13 :
    nextWith (exec .lenFromBytes { State.reset with bufLen := 0xFFFFFFFF#32, lenBytes := 0x80000000#32 })
      (fun t => t.result == 2147483648#32 && statusWord t.status == 0x2#32) = true := by decide

/-- T20. -/
theorem test_lsb_write_T20 :
    nextWith (exec .lsbWrite (loaded 16 3 1 pixT20 (bytesAt 0 [0x3C])))
      (fun t => t.pix == bytesAt 0 [0x00, 0x11, 0x22, 0x32, 0x44, 0x55, 0x67, 0x77, 0x89, 0x98, 0xAA, 0xBB, 0xCC, 0xDD,
          0xEE, 0xFF] && statusWord t.status == 0x2#32) = true := by decide +kernel

/-- T29: the bound does not wrap. -/
theorem test_lsb_write_T29 :
    nextWith (exec .lsbWrite (loaded 64 0xFFFFFFF8 1 (filled 64 0) (bytesAt 0 [0x3C])))
      (fun t => t.pix == filled 64 0 && statusWord t.status == 0x22#32) = true := by decide +kernel

/-- T42. -/
theorem test_lsb_read_int_T42 :
    nextWith (exec .lsbReadInt (loaded 33 1 0 (bytesAt 0 (0 :: 1 :: List.replicate 31 0)) []))
      (fun t => t.result == 0x80000000#32 && statusWord t.status == 0x2#32) = true := by decide +kernel

/-- T52: only bit 0 of each carrier is read. -/
theorem test_lsb_read_int_T52 :
    nextWith (exec .lsbReadInt (loaded 32 0 0 (bytesAt 0 (List.replicate 8 [0xFE, 0x00, 0xFF, 0x01]).flatten) []))
      (fun t => t.result == 0x33333333#32 && statusWord t.status == 0x2#32) = true := by decide +kernel

/-- T47. -/
theorem test_lsb_read_bytes_T47 :
    nextWith (exec .lsbReadBytes (loaded 16 0 2
        (bytesAt 0 [0x00, 0x11, 0x22, 0x32, 0x44, 0x55, 0x67, 0x77, 0x89, 0x98, 0xAA, 0xBB, 0xCC, 0xDD, 0xEE, 0xFF]) []))
      (fun t => t.dat == bytesAt 0 [0x47, 0x95] && statusWord t.status == 0x2#32) = true := by decide +kernel

/-- T50: the bound does not wrap. -/
theorem test_lsb_read_bytes_T50 :
    nextWith (exec .lsbReadBytes (loaded 64 0 0x20000000 (filled 64 0) (bytesAt 0 [7])))
      (fun t => t.dat == bytesAt 0 [7] && statusWord t.status == 0x32#32) = true := by decide +kernel

/-- T60 (S6). -/
theorem test_frame_encode_T60 :
    nextWith (exec .frameEncode (loaded 40 0 1 (filled 40 0) (bytesAt 0 [0xA5])))
      (fun t => t.pix == pixT60 && statusWord t.status == 0x2#32) = true := by decide +kernel

/-- T63: the payload stage fails; the code is OOB_ERR and PIX[32 ..) is unchanged (the bits 7..1 below 32 are
`Obligations.NoCommandChangesUpperBits`). -/
theorem test_frame_encode_T63 :
    nextWith (exec .frameEncode (loaded 47 0 2 (filled 48 0xFE) (bytesAt 0 [0x0F, 0xF0])))
      (fun t => Memory.read t.pix 36 == some 0xFE#8 && Memory.read t.pix 47 == some 0xFE#8 &&
        statusWord t.status == 0x22#32) = true := by decide +kernel

/-- T61 (S6). -/
theorem test_frame_decode_T61 :
    nextWith (exec .frameDecode (loaded 40 0 0 pixT60 []))
      (fun t => t.result == 1#32 && t.dat == bytesAt 0 [0xA5] && statusWord t.status == 0x2#32) = true := by decide +kernel

/-- T68: the bound does not wrap. -/
theorem test_frame_decode_T68 :
    nextWith (exec .frameDecode (loaded 64 0 0 (filled 64 1) []))
      (fun t => t.result == 0#32 && t.dat == [] && statusWord t.status == 0x32#32) = true := by decide +kernel

/-- T32: a payload byte never written. -/
theorem test_uninit_payload_T32 : faultOf (exec .lsbWrite (loaded 8 0 1 (filled 8 0) [])) = some .uninitRead := by
  decide +kernel

/-- T73: a payload carrier never written. -/
theorem test_uninit_carrier_T73 :
    faultOf (exec .frameDecode (loaded 40 0 0 (bytesAt 0 (List.replicate 31 0 ++ [1])) [])) = some .uninitRead := by
  decide +kernel

/-! ## Dispatch, registers and the host port -/

/-- T82: a word with a reserved bit set runs no command. -/
theorem test_illegal_word_T82 :
    nextWith (step (pending 0x11#32))
      (fun t => statusWord t.status == 0x42#32 && t.cmd == 0x11#32 && t.lenBytes == 0#32) = true := by decide

theorem test_first_command_after_reset :
    nextWith (step (State.reset.withFetchWord 32 2)) (fun t => statusWord t.status == 0x2#32 && t.cmd == 2#32) = true := by
  decide

/-- T85, T86, T87. -/
theorem test_constant_registers_T85_T87 :
    csrRead (csrWrite State.reset 0x00 0#32) 0x00 = 0x4C534231#32 ∧ csrRead State.reset 0x04 = 64#32 ∧
    csrRead State.reset 0x08 = 8#32 ∧ csrRead State.reset 0x30 = 0#32 := by decide

/-- T88, T89, T90. -/
theorem test_bus_errors_T88_T90 :
    hostRead State.reset .csr 0x02 4 = .error .hostBusError ∧ hostRead State.reset .csr 0x00 1 = .error .hostBusError ∧
    hostRead State.reset .pix 0 4 = .error .hostBusError := by decide

/-- T91. -/
theorem test_uninit_host_read_T91 : hostRead State.reset .pix 5 1 = .error .uninitRead := by decide

/-- T92, T93, T94. -/
theorem test_status_write_T92_T94 :
    statusWord (csrWrite { State.reset with status := ⟨false, true, .capacity, false⟩ } 0x10 0x2#32).status = 0#32 ∧
    statusWord (csrWrite { State.reset with status := ⟨false, true, .capacity, true⟩ } 0x10 0x100#32).status = 0x22#32 ∧
    statusWord (csrWrite { State.reset with status := ⟨false, true, .capacity, false⟩ } 0x10 0xFFFFFEFD#32).status =
      0x22#32 := by decide

/-- The first two statements of P6. -/
def progP6 : List HostStmt := [stmtCMD .lenFromBytes, stmtWR .dataLen 5#32]

/-- P6 (a): the core step runs before the write. -/
theorem test_write_after_completion_P6a :
    nextWith (run 3 { State.reset with prog := progP6, sched := [.host, .core, .host] })
      (fun t => statusWord t.status == 0x2#32 && t.dataLen == 5#32) = true := by decide

/-- P6 (b): the core step runs after the write. -/
theorem test_write_while_busy_P6b :
    nextWith (run 3 { State.reset with prog := progP6, sched := [.host, .host, .core] })
      (fun t => statusWord t.status == 0x102#32 && t.dataLen == 0#32) = true := by decide

/-- 30 R97: the transactions of FILL, LOAD, RUN and CLR. -/
theorem test_pseudo_statements :
    stmtsFILL .pix 1 2 0x80#8 = [.write .pix 1 1 0x80#32, .write .pix 2 1 0x80#32] ∧
    stmtsLOAD .dat 0 [0x0F#8, 0xF0#8] = [.write .dat 0 1 0x0F#32, .write .dat 1 1 0xF0#32] ∧
    stmtsRUN .frameEncode = [.write .csr 0x0C 4 6#32, .wait] ∧ stmtCLR = .write .csr 0x10 4 0x102#32 := by decide

/-! ## Witnesses: concrete states that meet the hypotheses of each statement -/

theorem witness_DecodingFollowsTheOpcodeMap :
    decode 7#32 = .instr .frameDecode ∧ State.reset.cmd = 0#32 ∧ ∀ i, decode 0#32 ≠ .instr i := by
  refine ⟨by decide, rfl, fun i => ?_⟩
  cases i <;> decide

theorem witness_DecodeOfEncodeIsTheCommand : Instr.lsbWrite.wellFormed = true := by decide

/-- Both kinds of sched, and the second clause's configuration. -/
theorem witness_StepRunsTheDecodedCommand :
    Config.capsValid (pending 1#32).pixcap (pending 1#32).datcap = true ∧ (pending 1#32).status.busy = true ∧
    (pending 1#32).sched = [] ∧ { pending 1#32 with sched := [.core, .host] }.sched.head? = some .core ∧
    decode (pending 1#32).cmd = .instr .lenToBytes := by decide

/-- The least and greatest illegal OP, and a reserved bit. -/
theorem witness_IllegalWordCompletesWithItsCode :
    (pending 0x10#32).cmd.extractLsb' 4 28 ≠ 0#28 ∧ (pending 0#32).cmd.extractLsb' 0 4 = 0x0#4 ∧
    8 ≤ ((pending 8#32).cmd.extractLsb' 0 4).toNat ∧ 8 ≤ ((pending 0xF#32).cmd.extractLsb' 0 4).toNat := by decide

theorem witness_CoreStepCompletesOrMeetsUninitRead :
    State.reset.status.busy = false ∧ (pending 1#32).status.busy = true := by decide

/-- Every code that a command can end with is reached. -/
theorem witness_ErrorCodesAreThoseOfTheTable :
    (∃ t, exec .lenToBytes { State.reset with lenInHi := 1#32 } = .next t ∧ (t.status.err == .range) = true) ∧
    (∃ t, exec .lsbWrite (loaded 7 0 1 [] []) = .next t ∧ (t.status.err == .capacity) = true) ∧
    (∃ t, exec .frameEncode (loaded 31 0 0 [] []) = .next t ∧ (t.status.err == .capacity) = true) ∧
    (∃ t, exec .lsbReadInt (loaded 31 0 0 [] []) = .next t ∧ (t.status.err == .outOfBounds) = true) ∧
    (∃ t, exec .lsbReadBytes (loaded 7 0 1 [] []) = .next t ∧ (t.status.err == .outOfBounds) = true) ∧
    (∃ t, exec .frameDecode (loaded 31 0 0 [] []) = .next t ∧ (t.status.err == .outOfBounds) = true) ∧
    (∃ t, exec .frameDecode (loaded 65 0 0 [] []) = .next t ∧ (t.status.err == .badConfig) = true) :=
  ⟨nextWith_spec (by decide), nextWith_spec (by decide), nextWith_spec (by decide), nextWith_spec (by decide),
    nextWith_spec (by decide), nextWith_spec (by decide), nextWith_spec (by decide)⟩

/-- For the frames: each command that writes has a next state in which it wrote. -/
theorem witness_CommandsLeaveOtherBytes :
    (∃ t, exec .lsbWrite (loaded 16 8 1 pixT20 (bytesAt 0 [0x3C])) = .next t ∧ (t.status.err == .ok) = true) ∧
    (∃ t, exec .lsbReadBytes (loaded 16 8 1 pixT20 []) = .next t ∧ (t.status.err == .ok) = true) ∧
    (∃ t, exec .frameEncode (loaded 40 0 1 (filled 40 0) (bytesAt 0 [0xA5])) = .next t ∧ (t.status.err == .ok) = true) ∧
    (∃ t, exec .frameDecode (loaded 40 0 0 pixT60 []) = .next t ∧ (t.status.err == .ok) = true) ∧
    spells (loaded 40 0 0 pixT60 []).pix 0 1#32 :=
  ⟨nextWith_spec (by decide +kernel), nextWith_spec (by decide +kernel), nextWith_spec (by decide +kernel),
    nextWith_spec (by decide +kernel), by decide +kernel⟩

theorem witness_CommandsLeaveOtherRegisters :
    (∃ t, exec .lsbReadInt (loaded 32 0 0 (filled 32 1) []) = .next t ∧ (t.status.err == .ok) = true) ∧
    Instr.lsbReadInt ≠ .lenToBytes ∧ Instr.lsbWrite ≠ .lenFromBytes ∧ Instr.lsbWrite ≠ .lsbReadInt ∧
    Instr.lsbWrite ≠ .frameDecode ∧ Instr.lsbReadInt ≠ .frameEncode :=
  ⟨nextWith_spec (by decide +kernel), by decide⟩

theorem witness_NoCommandChangesUpperBits :
    ∃ t, exec .lsbWrite (loaded 8 0 1 (filled 8 0xFE) (bytesAt 0 [0x5A])) = .next t ∧ (t.status.err == .ok) = true :=
  nextWith_spec (by decide +kernel)

/-- A clean error, and the one exception at its boundary BUF_LEN = 32 + 8 DATA_LEN - 1. -/
theorem witness_ErrorsArePrecise :
    (∃ t, exec .lsbWrite (loaded 7 0 1 [] []) = .next t ∧ (t.status.err == .capacity) = true) ∧
    (∃ t, exec .frameEncode (loaded 39 0 1 (filled 32 0) []) = .next t ∧ (t.status.err == .capacity) = true) :=
  ⟨nextWith_spec (by decide), nextWith_spec (by decide +kernel)⟩

/-- Both sides of each bound of ToBytes32. -/
theorem witness_ToBytes32GivesBigEndianBytes :
    ((-1 : Int) < 0) ∧ ((2 : Int) ^ 32 - 1 < 2 ^ 32) ∧ (0 ≤ (2 : Int) ^ 32 - 1) ∧ ((2 : Int) ^ 32 - 1 ≤ 2 ^ 32 - 1) := by
  decide

theorem witness_LenToBytesStoresTheLengthOrRange :
    State.reset.lenInHi = 0#32 ∧ { State.reset with lenInHi := 1#32 }.lenInHi ≠ 0#32 := by decide

theorem witness_LengthCodecRoundTrip : (2 : Nat) ^ 32 - 1 ≤ 2 ^ 32 - 1 ∧ State.reset.lenInHi = 0#32 := by decide

/-- LsbWrite succeeds at an exact fit. -/
theorem witness_LsbWriteIsNonDestructive :
    ∃ t, lsbWrite (loaded 8 0 1 (filled 8 0) []) 0 1 (listSource [0xFF#8]) = .done t := ⟨_, rfl⟩

theorem witness_LsbWriteStoresTheBits :
    (∃ t, lsbWrite (loaded 8 0 1 (filled 8 0) []) 0 1 (listSource [0xFF#8]) = .done t) ∧ 0 < 1 ∧ 7 ≤ 7 := ⟨⟨_, rfl⟩, by decide⟩

/-- T22: an exact fit; T27: DATA_LEN = 0 at the end of the buffer. -/
theorem witness_LsbWriteCompletes :
    ((loaded 16 8 1 pixT20 (bytesAt 0 [0x3C])).bufLen.toNat ≤ (loaded 16 8 1 pixT20 (bytesAt 0 [0x3C])).pixcap.toNat ∧
      (8#32).toNat + 8 * (1#32).toNat ≤ (16#32).toNat ∧
      (loaded 16 8 1 pixT20 (bytesAt 0 [0x3C])).dat.initOn 0 1 ∧ (loaded 16 8 1 pixT20 (bytesAt 0 [0x3C])).pix.initOn 8 8) ∧
    ((loaded 64 64 0 [] []).bufLen.toNat ≤ (loaded 64 64 0 [] []).pixcap.toNat ∧ (64#32).toNat + 8 * (0#32).toNat ≤ (64#32).toNat ∧
      (loaded 64 64 0 [] []).dat.initOn 0 0 ∧ (loaded 64 64 0 [] []).pix.initOn 64 0) := by decide +kernel

/-- T43: BIT_OFFSET + 32 = BUF_LEN = PIX_CAP. -/
theorem witness_LsbReadIntCompletes :
    (loaded 64 32 0 (filled 64 1) []).bufLen.toNat ≤ (loaded 64 32 0 (filled 64 1) []).pixcap.toNat ∧
    (loaded 64 32 0 (filled 64 1) []).bitOffset.toNat + 32 ≤ (loaded 64 32 0 (filled 64 1) []).bufLen.toNat ∧
    (loaded 64 32 0 (filled 64 1) []).pix.initOn 32 32 := by decide +kernel

theorem witness_LsbReadBytesCompletes :
    (loaded 16 0 2 pixT20 []).bufLen.toNat ≤ (loaded 16 0 2 pixT20 []).pixcap.toNat ∧
    (loaded 16 0 2 pixT20 []).bitOffset.toNat + 8 * (loaded 16 0 2 pixT20 []).dataLen.toNat ≤
      (loaded 16 0 2 pixT20 []).bufLen.toNat ∧
    (loaded 16 0 2 pixT20 []).pix.initOn 0 16 := by decide +kernel

theorem witness_LsbReadBytesUndoesLsbWrite :
    (∃ t, exec .lsbReadInt (loaded 32 0 0 (filled 32 1) []) = .next t ∧ (t.status.err == .ok) = true) ∧
    (∃ t, lsbWrite (loaded 8 0 1 (filled 8 0) []) 0 1 (listSource [0xFF#8]) = .done t ∧
      (loaded 8 0 1 t.pix []).pix = t.pix ∧ (loaded 8 0 1 t.pix []).bufLen = (loaded 8 0 1 (filled 8 0) []).bufLen ∧
      (loaded 8 0 1 t.pix []).bufLen.toNat ≤ (loaded 8 0 1 t.pix []).pixcap.toNat ∧
      (loaded 8 0 1 t.pix []).bitOffset.toNat = 0 ∧ (loaded 8 0 1 t.pix []).dataLen.toNat = 1) :=
  ⟨nextWith_spec (by decide +kernel), _, rfl, rfl, rfl, by decide, by decide, by decide⟩

/-- BUF_LEN one above PIX_CAP; the second clause's premise is met in witness_ErrorCodesAreThoseOfTheTable. -/
theorem witness_BadConfigComesFirst :
    (loaded 65 0 0 [] []).pixcap.toNat < (loaded 65 0 0 [] []).bufLen.toNat ∧
    (∃ t, exec .lsbWrite (loaded 65 0 0 [] []) = .next t ∧ (t.status.err == .badConfig) = true) :=
  ⟨by decide, nextWith_spec (by decide)⟩

/-- T23 (one carrier short) and BUF_LEN = 31. -/
theorem witness_LsbWriteAndPrefixCapacityErrorsWriteNothing :
    ((loaded 16 9 1 [] []).bufLen.toNat ≤ (loaded 16 9 1 [] []).pixcap.toNat ∧
      (loaded 16 9 1 [] []).bufLen.toNat < (loaded 16 9 1 [] []).bitOffset.toNat + 8 * (loaded 16 9 1 [] []).dataLen.toNat) ∧
    ((loaded 31 0 0 [] []).bufLen.toNat ≤ (loaded 31 0 0 [] []).pixcap.toNat ∧ (loaded 31 0 0 [] []).bufLen.toNat < 32) := by
  decide

/-- T44, T49, T71, and the payload check one carrier short (BUF_LEN = 39, L = 1). -/
theorem witness_OutOfBoundsErrorsWriteNothing :
    ((loaded 64 33 0 [] []).bufLen.toNat ≤ (loaded 64 33 0 [] []).pixcap.toNat ∧
      (loaded 64 33 0 [] []).bufLen.toNat < (loaded 64 33 0 [] []).bitOffset.toNat + 32) ∧
    (loaded 64 65 0 [] []).bufLen.toNat < (loaded 64 65 0 [] []).bitOffset.toNat + 8 * (loaded 64 65 0 [] []).dataLen.toNat ∧
    (loaded 31 0 0 [] []).bufLen.toNat < 32 ∧
    (32 ≤ (loaded 39 0 0 pixT60 []).bufLen.toNat ∧ (loaded 39 0 0 pixT60 []).pix.initOn 0 32 ∧
      spells (loaded 39 0 0 pixT60 []).pix 0 1#32 ∧ (loaded 39 0 0 pixT60 []).bufLen.toNat < 32 + 8 * (1#32).toNat) := by
  decide +kernel

/-- An exact fit (BUF_LEN = 32 + 8 DATA_LEN). -/
theorem witness_FrameEncodeCompletes :
    (loaded 40 0 1 (filled 40 0) (bytesAt 0 [0xA5])).bufLen.toNat ≤ (loaded 40 0 1 (filled 40 0) (bytesAt 0 [0xA5])).pixcap.toNat ∧
    32 + 8 * (loaded 40 0 1 (filled 40 0) (bytesAt 0 [0xA5])).dataLen.toNat ≤
      (loaded 40 0 1 (filled 40 0) (bytesAt 0 [0xA5])).bufLen.toNat ∧
    (loaded 40 0 1 (filled 40 0) (bytesAt 0 [0xA5])).dat.initOn 0 1 ∧
    (loaded 40 0 1 (filled 40 0) (bytesAt 0 [0xA5])).pix.initOn 0 40 := by decide +kernel

/-- One carrier short of the payload, and one short of the prefix. -/
theorem witness_FailedFrameEncodeLeavesFreePrefixBits :
    ((loaded 39 0 1 (filled 32 0) []).bufLen.toNat ≤ (loaded 39 0 1 (filled 32 0) []).pixcap.toNat ∧
      32 ≤ (loaded 39 0 1 (filled 32 0) []).bufLen.toNat ∧
      (loaded 39 0 1 (filled 32 0) []).bufLen.toNat < 32 + 8 * (loaded 39 0 1 (filled 32 0) []).dataLen.toNat ∧
      (loaded 39 0 1 (filled 32 0) []).pix.initOn 0 32) ∧
    (loaded 31 0 0 [] []).bufLen.toNat < 32 := by decide +kernel

theorem witness_FrameDecodeCompletes :
    (loaded 40 0 0 pixT60 []).bufLen.toNat ≤ (loaded 40 0 0 pixT60 []).pixcap.toNat ∧
    spells (loaded 40 0 0 pixT60 []).pix 0 1#32 ∧ 32 + 8 * (1#32).toNat ≤ (loaded 40 0 0 pixT60 []).bufLen.toNat ∧
    (loaded 40 0 0 pixT60 []).pix.initOn 0 40 := by decide +kernel

/-- The four laws: an exact fit, a success, an empty payload in 32 carriers, and both sides of the boundary. -/
theorem witness_FramerRoundTrip :
    ((loaded 40 0 1 (filled 40 0) (bytesAt 0 [0xA5])).bufLen.toNat ≤ 64 ∧
      (loaded 40 0 1 (filled 40 0) (bytesAt 0 [0xA5])).pix.initOn 0 40 ∧ 32 + 8 * (1#32).toNat ≤ (40#32).toNat ∧
      (loaded 40 0 1 (filled 40 0) (bytesAt 0 [0xA5])).dat.initOn 0 1) ∧
    (∃ t, exec .frameEncode (loaded 40 0 1 (filled 40 0) (bytesAt 0 [0xA5])) = .next t ∧ (t.status.err == .ok) = true) ∧
    ((loaded 32 0 0 (filled 32 0xFF) []).bufLen.toNat ≤ 64 ∧ 32 ≤ (loaded 32 0 0 (filled 32 0xFF) []).bufLen.toNat ∧
      (loaded 32 0 0 (filled 32 0xFF) []).pix.initOn 0 32 ∧ (loaded 32 0 0 (filled 32 0xFF) []).dataLen = 0#32) ∧
    ((loaded 47 0 2 (filled 48 0xFE) (bytesAt 0 [0x0F, 0xF0])).pix.initOn 0 47 ∧
      (loaded 47 0 2 (filled 48 0xFE) (bytesAt 0 [0x0F, 0xF0])).dat.initOn 0 2 ∧
      (loaded 47 0 2 [] []).bufLen.toNat = 32 + 8 * (loaded 47 0 2 [] []).dataLen.toNat - 1 ∧
      (loaded 48 0 2 [] []).bufLen.toNat = 32 + 8 * (loaded 48 0 2 [] []).dataLen.toNat) :=
  ⟨by decide +kernel, nextWith_spec (by decide +kernel), by decide +kernel, by decide +kernel⟩

/-- The buffer of P2, with only PIX[0 .. 32) written. -/
def pixP2 : Memory := bytesAt 0 (List.replicate 22 0x80 ++ [0x81, 0x81, 0x81, 0x81, 0x81, 0x80, 0x81, 0x80, 0x80, 0x80])

theorem witness_CorruptedBufferIsOutOfBounds :
    (loaded 36 0 0 pixP2 []).bufLen = 36#32 ∧ 36 ≤ (loaded 36 0 0 pixP2 []).pixcap.toNat ∧
    (loaded 36 0 0 pixP2 []).pix.initOn 0 32 ∧
    (∀ i < 32, carrierBit (loaded 36 0 0 pixP2 []).pix i = decide (i = 22 ∨ i = 23 ∨ i = 24 ∨ i = 25 ∨ i = 26 ∨ i = 28)) := by
  decide +kernel

/-- A reset state, which meets the invariant for every valid configuration, has a next state. -/
theorem witness_StepKeepsTheInvariant :
    (loaded 40 0 1 (filled 40 0) (bytesAt 0 [0xA5])).Inv ∧
    ∃ t, step (State.withFetchWord (loaded 40 0 1 (filled 40 0) (bytesAt 0 [0xA5])) 32 6) = .next t ∧
      (t.status.err == .ok) = true :=
  ⟨⟨by decide, by decide, by decide +kernel, by decide, by decide +kernel, by decide⟩, nextWith_spec (by decide +kernel)⟩

/-- The least DAT_CAP for PIX_CAP = 2^32 - 1, and the empty instance. -/
theorem witness_ResetMeetsTheInvariant :
    (0xFFFFFFFF#32).toNat / 8 ≤ (0x1FFFFFFF#32).toNat ∧ (0#32).toNat / 8 ≤ (0#32).toNat := by decide

theorem witness_PixBeyondBufLenIsIsolated : ∀ a < (loaded 8 0 1 (filled 8 0) []).bufLen.toNat,
    Memory.read (bytesAt 0 [0, 0, 0, 0, 0, 0, 0, 0, 9]) a = Memory.read (loaded 8 0 1 (filled 8 0) []).pix a := by decide

theorem witness_DatBeyondCapacityIsIsolated :
    State.reset.pixcap.toNat / 8 ≤ State.reset.datcap.toNat ∧
    ∀ a < State.reset.datcap.toNat, Memory.read (bytesAt 8 [1]) a = Memory.read State.reset.dat a := by decide

theorem witness_OnlyAnInvalidConfigurationIsRefused :
    ¬(State.resetWith 64#32 7#32).pixcap.toNat / 8 ≤ (State.resetWith 64#32 7#32).datcap.toNat ∧
    step (State.resetWith 64#32 7#32) = .refused .invalidConfig := ⟨by decide, rfl⟩

/-- A step with a next state, and a step that records each of the three faults. -/
theorem witness_FaultsAreNeverRemoved :
    (∃ t, step (pending 1#32) = .next t ∧ (t.status.err == .ok) = true) ∧
    step { pending 1#32 with prog := [stmtRB .pix 0 "x"], sched := [.host] } = .fault .hostRace ∧
    step { State.reset with prog := [stmtRB .pix 0 "x"] } = .fault .uninitRead ∧
    step { State.reset with prog := [stmtRB .pix 64 "x"] } = .fault .hostBusError :=
  ⟨nextWith_spec (by decide), rfl, rfl, rfl⟩

theorem witness_ResultIsWrittenOnlyOnSuccess :
    ∃ t, step { pending 2#32 with lenBytes := 7#32 } = .next t ∧ (t.result == 7#32) = true := nextWith_spec (by decide)

theorem witness_BusyComesOnlyFromACommandWrite :
    State.reset.status.busy = false ∧
    ∃ t, step { State.reset with prog := [stmtCMD .lsbWrite] } = .next t ∧ (t.status.busy) = true :=
  ⟨rfl, nextWith_spec (by decide)⟩

theorem witness_PendingCommandKeepsItsOperands :
    (pending 1#32).status.busy = true ∧
    ∃ t, step { pending 1#32 with prog := [stmtWR .bufLen 9#32], sched := [.host] } = .next t ∧ t.status.busy = true :=
  ⟨rfl, nextWith_spec (by decide)⟩

/-- OVR set by a write while BUSY = 1, cleared by a write of its bit, and by reset. -/
theorem witness_OverrunFlagRule :
    (pending 1#32).status.busy = true ∧ (pending 1#32).status.ovr = false ∧
    (∃ t, step { pending 1#32 with prog := [stmtWR .bufLen 9#32], sched := [.host] } = .next t ∧ t.status.ovr = true) ∧
    (∃ t, step { State.reset with status := ⟨false, true, .ok, true⟩, prog := [stmtCLR] } = .next t ∧
      (!t.status.ovr) = true) ∧
    (∃ t, step { State.reset with status := ⟨true, false, .ok, true⟩, sched := [.reset] } = .next t ∧
      (!t.status.ovr) = true) :=
  ⟨rfl, rfl, nextWith_spec (by decide), nextWith_spec (by decide), nextWith_spec (by decide)⟩

/-- No turn named; a host turn and no reset; a core turn alone. -/
theorem witness_PendingCommandEnds :
    Config.capsValid (pending 1#32).pixcap (pending 1#32).datcap = true ∧ (pending 1#32).status.busy = true ∧
    Turn.reset ∉ { pending 1#32 with sched := [.host, .core] }.sched ∧
    (∀ x ∈ { pending 1#32 with sched := [.core] }.sched, x = Turn.core) := by decide

theorem witness_CommandWriteIsAcceptedOnlyWhenIdle :
    State.reset.status.busy = false ∧ (pending 1#32).status.busy = true ∧
    { State.reset with prog := [stmtRD .cmd "c"] }.prog = .read .csr 0x0C 4 "c" :: [] ∧
    ∃ t, step { State.reset with prog := [stmtWR .cmd 0x11#32] } = .next t ∧ (t.cmd == 0x11#32) = true :=
  ⟨rfl, rfl, rfl, nextWith_spec (by decide)⟩

theorem witness_StatusWriteClearsByOnes :
    State.reset.status.busy = false ∧ (pending 1#32).status.busy = true ∧
    { State.reset with prog := [stmtRD .status "s"] }.prog = .read .csr 0x10 4 "s" :: [] := by decide

/-- Both ends of the reserved range. -/
theorem witness_ReservedOffsetsReadZero :
    (0x30 ≤ 0x30 ∧ 0x30 ≤ 0xFC) ∧ (0x30 ≤ 0xFC ∧ 0xFC ≤ 0xFC) ∧ State.reset.status.busy = false ∧
    (pending 1#32).status.busy = true := by decide

theorem witness_CsrWriteWhileBusyIsDropped :
    (pending 1#32).status.busy = true ∧ State.reset.status.busy = false ∧ 0x30 ≤ 0x30 := by decide

theorem witness_IdentityAndCapacitiesAreConstant :
    State.reset.status.busy = false ∧ ∃ t, step State.reset = .next t ∧ (t.pixcap == 64#32) = true :=
  ⟨rfl, nextWith_spec (by decide)⟩

theorem witness_OperandRegistersHoldWhatIsWritten : State.reset.status.busy = false ∧ 0x28 ≠ 0x14 := by decide

/-- The last byte of each memory, written and not. -/
theorem witness_HostByteAccess :
    State.reset.status.busy = false ∧ 7 < State.reset.datcap.toNat ∧ 63 < State.reset.pixcap.toNat ∧
    Memory.read (loaded 0 0 0 [] (bytesAt 7 [5])).dat 7 = some 5#8 ∧ Memory.read State.reset.dat 7 = none ∧
    Memory.read (loaded 0 0 0 (bytesAt 63 [5]) []).pix 63 = some 5#8 ∧ Memory.read State.reset.pix 63 = none ∧
    ∃ t, hostStep { loaded 0 0 0 [] (bytesAt 7 [5]) with prog := [stmtRB .dat 7 "x"] } = .next t ∧
      (t.names == [("x", .byte 5#8)]) = true :=
  ⟨rfl, by decide, by decide, by decide, rfl, by decide, rfl, nextWith_spec (by decide)⟩

theorem witness_HostAccessWhileBusyIsARace :
    (pending 1#32).status.busy = true ∧ 7 < (pending 1#32).datcap.toNat ∧ 63 < (pending 1#32).pixcap.toNat ∧
    { pending 1#32 with prog := [stmtRB .dat 7 "x"] }.prog = .read .dat 7 1 "x" :: [] ∧
    { pending 1#32 with prog := [stmtWB .pix 63 1#8] }.prog = .write .pix 63 1 1#32 :: [] := by decide

theorem witness_ResetEventClearsTheBlock :
    Config.capsValid (pending 1#32).pixcap (pending 1#32).datcap = true ∧
    { pending 1#32 with sched := [.reset] }.sched.head? = some .reset := by decide

/-- Both ways to the host's turn, each kind of statement, and each way it can end. -/
theorem witness_HostTurnTakesOneTransaction :
    Config.capsValid State.reset.pixcap State.reset.datcap = true ∧
    { State.reset with sched := [.host] }.sched.head? = some .host ∧ State.reset.sched = [] ∧
    State.reset.status.busy = false ∧ State.reset.prog = [] ∧
    hostWrite State.reset .pix 63 1 5#32 = .ok { State.reset with pix := bytesAt 63 [5] } ∧
    hostWrite State.reset .pix 64 1 5#32 = .error .hostBusError ∧
    hostRead State.reset .csr 0x04 4 = .ok (.word 64#32) ∧ hostRead State.reset .dat 0 1 = .error .uninitRead ∧
    "y" ≠ "x" := by decide

theorem witness_IssuedCommandRunsNext :
    Config.capsValid State.reset.pixcap State.reset.datcap = true ∧ State.reset.status.busy = false ∧
    { State.reset with prog := [stmtCMD .lsbWrite, .wait] }.sched = [] ∧
    { State.reset with prog := [stmtCMD .lsbWrite, .wait] }.prog = stmtCMD .lsbWrite :: [.wait] := by decide

theorem witness_WaitPollsUntilIdle :
    { pending 1#32 with prog := [.wait] }.prog = .wait :: [] ∧ { pending 1#32 with prog := [.wait] }.status.busy = true ∧
    { State.reset with prog := [.wait] }.status.busy = false := by decide

/-- For each command two memories that differ only outside what it reads: no byte at all; the 32 carriers and the window of
LSB_READ_BYTES in the middle of PIX; the prefix and payload carriers; and DAT[0, 1) for the writes. -/
theorem witness_CommandsReadOnlyTheirBytes :
    (∀ a, 32 ≤ a → a < 64 → Memory.read (bytesAt 32 (List.replicate 32 1)) a = Memory.read (filled 64 1) a) ∧
    (∀ a, 8 ≤ a → a < 16 → Memory.read (bytesAt 8 [0x88, 0x99, 0xAA, 0xBB, 0xCC, 0xDD, 0xEE, 0xFF, 7]) a =
      Memory.read pixT20 a) ∧
    (spells pixT60 0 1#32 ∧ ∀ a < 40, Memory.read (pixT60 ++ [(40, 9#8)]) a = Memory.read pixT60 a) ∧
    (∀ j < 1, Memory.read (bytesAt 0 [0xA5, 9]) j = Memory.read (bytesAt 0 [0xA5]) j) := by
  refine ⟨fun a h1 h2 => ?_, fun a h1 h2 => ?_, by decide +kernel, by decide⟩
  · interval_cases a <;> decide +kernel
  · interval_cases a <;> decide

/-- Both ends of the CSR space, each kind of statement, and BUSY = 0. -/
theorem witness_HostPortReachesEveryRegister :
    (0x00 % 4 = 0 ∧ 0x00 ≤ 0xFC) ∧ (0xFC % 4 = 0 ∧ 0xFC ≤ 0xFC) ∧ State.reset.status.busy = false ∧
    { pending 1#32 with prog := [stmtWR .bufLen 9#32] }.prog = .write .csr 0x14 4 9#32 :: [] ∧
    { pending 1#32 with prog := [stmtRD .result "r"] }.prog = .read .csr 0x2C 4 "r" :: [] := by decide

theorem witness_OneByteWriteTakesTheLowByte :
    Space.dat = .dat ∧ Space.pix = .pix ∧ (0x1FF#32).extractLsb' 0 8 = 0xFF#8 := by decide

end Sys2Proof.Tests
end

section
/-! PROOFS. Every operation of the block keeps the invariant, one lemma per operation, up to the step (O32). -/

namespace Sys2Proof.Machine

/-- The constraint of 00 R5 in numbers. -/
theorem capsValid_iff {p d : Word} : Config.capsValid p d = true ↔ p.toNat / 8 ≤ d.toNat := by
  simp [Config.capsValid]

namespace State.Inv

variable {s t : State}

/-- The invariant speaks of the capacities, STATUS and the memories only. -/
theorem of_agree (h : s.Inv) (hpixcap : t.pixcap = s.pixcap) (hdatcap : t.datcap = s.datcap)
    (hstatus : t.status = s.status) (hpix : t.pix = s.pix) (hdat : t.dat = s.dat) : t.Inv where
  caps := by rw [hpixcap, hdatcap]; exact h.caps
  busyClear := by rw [hstatus]; exact h.busyClear
  pixWf := by rw [hpix]; exact h.pixWf
  datWf := by rw [hdat]; exact h.datWf
  pixBelow := by rw [hpix, hpixcap]; exact h.pixBelow
  datBelow := by rw [hdat, hdatcap]; exact h.datBelow

theorem withStatus (h : s.Inv) {st : Status} (hst : st.busy = true → st.done = false ∧ st.err = .ok) :
    State.Inv { s with status := st } where
  caps := h.caps
  busyClear := hst
  pixWf := h.pixWf
  datWf := h.datWf
  pixBelow := h.pixBelow
  datBelow := h.datBelow

theorem withPix (h : s.Inv) {m : Memory} (hw : m.wf) (hb : m.below s.pixcap.toNat) : (s.setPix m).Inv where
  caps := h.caps
  busyClear := h.busyClear
  pixWf := hw
  datWf := h.datWf
  pixBelow := hb
  datBelow := h.datBelow

theorem withDat (h : s.Inv) {m : Memory} (hw : m.wf) (hb : m.below s.datcap.toNat) : (s.setDat m).Inv where
  caps := h.caps
  busyClear := h.busyClear
  pixWf := h.pixWf
  datWf := hw
  pixBelow := h.pixBelow
  datBelow := hb

theorem withLenBytes (h : s.Inv) (v : Word) : (s.setLenBytes v).Inv := h.of_agree rfl rfl rfl rfl rfl

theorem withResult (h : s.Inv) (v : Word) : (s.setResult v).Inv := h.of_agree rfl rfl rfl rfl rfl

theorem withNextDraw (h : s.Inv) : s.nextDraw.Inv := h.of_agree rfl rfl rfl rfl rfl

/-- A completion clears BUSY (30 R99). -/
theorem complete (h : s.Inv) (e : ErrCode) : (s.complete e).Inv :=
  h.withStatus (by simp)

/-- A carrier write whose window ends below PIX_CAP. -/
theorem withCarriers (h : s.Inv) {m : Memory} {off : Nat} {xs : List Bool}
    (hm : writeCarriers s.pix off xs = some m) (hfit : off + xs.length ≤ s.pixcap.toNat) : (s.setPix m).Inv :=
  h.withPix (writeCarriers_wf hm h.pixWf) (writeCarriers_below hm h.pixBelow hfit)

/-- Bytes decoded out of carriers fit in DAT: 8 carriers a byte, and floor(PIX_CAP / 8) <= DAT_CAP (00 R5). -/
theorem withDecodedBytes (h : s.Inv) {bs : List Byte} (hfit : 8 * bs.length ≤ s.pixcap.toNat) :
    (s.setDat (Memory.writeSeq s.dat 0 bs)).Inv := by
  have hcaps := capsValid_iff.1 h.caps
  exact h.withDat (Memory.writeSeq_wf 0 bs h.datWf) (Memory.writeSeq_below 0 bs h.datBelow (by omega))

end State.Inv

theorem exec_keeps_inv {i : Instr} {s t : State} (hs : s.Inv) (h : exec i s = .next t) : t.Inv := by
  rcases exec_next h with ⟨e, -, rfl⟩ | ⟨-, v, rfl⟩ | ⟨-, rfl⟩ | ⟨-, v, rfl⟩ |
    ⟨-, hcap, hfit, bs, m, hlen, hm, rfl⟩ | ⟨-, hcap, hfit, bs, hlen, rfl⟩ |
    ⟨-, hcap, hfit, m, bs, m', hlen, hm, hm', rfl⟩ | ⟨-, hcap, h32, -, v, w, m, m', hm, hm', rfl⟩ |
    ⟨-, hcap, L, bs, -, hfit, hlen, rfl⟩
  -- an error that writes STATUS only
  · exact hs.complete e
  -- LEN_TO_BYTES, LEN_FROM_BYTES, LSB_READ_INT
  · exact (hs.withLenBytes v).complete .ok
  · exact (hs.withResult _).complete .ok
  · exact (hs.withResult v).complete .ok
  -- LSB_WRITE
  · exact (hs.withCarriers hm (by simp; omega)).complete .ok
  -- LSB_READ_BYTES
  · exact (hs.withDecodedBytes (by omega)).complete .ok
  -- FRAME_ENCODE: the length, then the payload
  · have hlength : (s.setPix m).Inv := hs.withCarriers hm (by simp; omega)
    have hpayload : (s.setPix m').Inv := hlength.withCarriers hm' (by simp; omega)
    exact hpayload.complete .ok
  -- FRAME_ENCODE failing at the payload: the length, then the free draw in its place
  · have hlength : (s.nextDraw.setPix m).Inv := hs.withNextDraw.withCarriers hm (by simp; omega)
    have hdraw : (s.nextDraw.setPix m').Inv := hlength.withCarriers hm' (by simp; omega)
    exact hdraw.complete .capacity
  -- FRAME_DECODE
  · exact ((hs.withDecodedBytes (by omega)).withResult L).complete .ok

theorem coreStep_keeps_inv {s t : State} (hs : s.Inv) (h : coreStep s = .next t) : t.Inv := by
  rcases coreStep_cases s with ⟨i, -, hi⟩ | ⟨w, -, hw⟩
  · exact exec_keeps_inv hs (hi ▸ h)
  · rw [hw] at h
    cases h
    exact hs.complete .illegalCmd

theorem csrWrite_keeps_inv {s : State} (hs : s.Inv) (off : Nat) (v : Word) : (csrWrite s off v).Inv := by
  rcases csrWrite_cases s off v with ⟨-, h⟩ | ⟨hidle, h | ⟨-, h⟩ | ⟨-, h⟩ | h | h | h | h | h | h⟩ <;> rw [h]
  -- dropped: OVR alone is set (10 R37)
  · exact hs.withStatus hs.busyClear
  · exact hs
  -- accepted: BUSY is set, and DONE and ERR are cleared with it (10 R27)
  · exact (hs.withStatus (by simp)).of_agree rfl rfl rfl rfl rfl
  · exact hs.withStatus (by simp [hidle])
  all_goals exact hs.of_agree rfl rfl rfl rfl rfl

theorem hostWrite_keeps_inv {s u : State} {sp : Space} {a w : Nat} {d : Word} (hs : s.Inv)
    (h : hostWrite s sp a w d = .ok u) : u.Inv := by
  rcases hostWrite_ok h with ⟨-, -, -, -, rfl⟩ | ⟨-, -, ha, -, rfl⟩ | ⟨-, -, ha, -, rfl⟩
  · exact csrWrite_keeps_inv hs a d
  · exact hs.withDat (Memory.write_wf _ _ hs.datWf) (Memory.write_below _ hs.datBelow ha)
  · exact hs.withPix (Memory.write_wf _ _ hs.pixWf) (Memory.write_below _ hs.pixBelow ha)

theorem hostStep_keeps_inv {s t : State} (hs : s.Inv) (h : hostStep s = .next t) : t.Inv := by
  rcases hostStep_next h with ⟨p, n, rfl⟩ | ⟨sp, a, w, d, rest, u, -, hu, rfl⟩
  · exact hs.of_agree rfl rfl rfl rfl rfl
  · exact (hostWrite_keeps_inv hs hu).of_agree rfl rfl rfl rfl rfl

/-- The reset event clears STATUS and both memories, and keeps the capacities (70 R220, R221). -/
theorem resetEvent_keeps_inv {s : State} (hs : s.Inv) : (resetEvent s).Inv where
  caps := hs.caps
  busyClear := by simp [Status.reset]
  pixWf := List.Pairwise.nil
  datWf := List.Pairwise.nil
  pixBelow := by simp
  datBelow := by simp

/-- Settles O32: each of the four things a step can do (step_next) keeps the invariant. -/
theorem stepKeepsTheInvariant : Obligations.StepKeepsTheInvariant := by
  intro s t hs h
  have htaken : State.Inv { s with sched := s.sched.tail } := hs.of_agree rfl rfl rfl rfl rfl
  obtain ⟨-, ⟨-, hcore⟩ | ⟨-, rfl⟩ | hhost | ⟨-, rfl⟩⟩ := step_next h
  · exact coreStep_keeps_inv htaken hcore
  · exact htaken
  · exact hostStep_keeps_inv htaken hhost
  · exact resetEvent_keeps_inv htaken

end Sys2Proof.Machine
end

section
/-! PROOFS. No turn of an agent is refused, so the configuration is the only cause of a refusal (O36). -/

namespace Sys2Proof.Machine

/-- A command completes or meets UNINIT_READ (30 R99). -/
theorem exec_not_refused (i : Instr) (s : State) (r : Refusal) : exec i s ≠ .refused r := by
  rcases exec_outcome i s with ⟨t, h, -⟩ | h <;> simp [h]

theorem coreStep_not_refused (s : State) (r : Refusal) : coreStep s ≠ .refused r := by
  rcases coreStep_cases s with ⟨i, -, h⟩ | ⟨w, -, h⟩ <;> rw [h]
  · exact exec_not_refused i s r
  · simp

theorem takeTurn_not_refused (s : State) (turn : Turn) (r : Refusal) : takeTurn s turn ≠ .refused r := by
  cases turn with
  | core =>
    simp only [takeTurn]
    split
    · exact coreStep_not_refused s r
    · simp
  | host => exact hostStep_not_refused s r
  | reset => simp [takeTurn]

theorem nextTurn_not_refused (s : State) (r : Refusal) : nextTurn s ≠ .refused r := by
  unfold nextTurn
  split <;> exact takeTurn_not_refused _ _ r

theorem step_of_capsValid {s : State} (h : Config.capsValid s.pixcap s.datcap = true) : step s = nextTurn s :=
  if_pos h

theorem step_of_not_capsValid {s : State} (h : ¬Config.capsValid s.pixcap s.datcap = true) :
    step s = .refused .invalidConfig :=
  if_neg h

/-- Settles O36: step refuses before any turn when 00 R5 is broken, and no turn is refused. -/
theorem onlyAnInvalidConfigurationIsRefused : Obligations.OnlyAnInvalidConfigurationIsRefused := by
  intro s
  refine ⟨fun hbad => step_of_not_capsValid (mt capsValid_iff.1 hbad), fun r hr hvalid => ?_⟩
  rw [step_of_capsValid (capsValid_iff.2 hvalid)] at hr
  exact nextTurn_not_refused s r hr

end Sys2Proof.Machine
end

section
/-! PROOFS. What a CSR read gives and a CSR write does at each offset, while BUSY = 0 and while BUSY = 1 (O44 to O47). -/

namespace Sys2Proof.Machine

theorem csrOffset_lt (r : Csr) : csrOffset r < 0x30 := by cases r <;> decide

/-- The offsets above the last register are reserved (10 R36). -/
theorem csrAt_reserved {off : Nat} (h : 0x30 ≤ off) : csrAt off = none := by
  cases hr : csrAt off with
  | none => rfl
  | some r =>
    have hlt := csrOffset_lt r
    have hoff := csrAt_some hr
    omega

@[simp] theorem csrRead_csrOffset (s : State) (r : Csr) : csrRead s (csrOffset r) = csrValue s r := by
  simp [csrRead]

theorem csrRead_reserved (s : State) {off : Nat} (h : 0x30 ≤ off) : csrRead s off = 0#32 := by
  simp [csrRead, csrAt_reserved h]

/-- While BUSY = 1 a CSR write is dropped, whatever its offset (10 R37). -/
theorem csrWrite_busy {s : State} (hb : s.status.busy = true) (off : Nat) (v : Word) :
    csrWrite s off v = { s with status := statusOverrun s.status } :=
  if_pos hb

theorem csrWrite_csrOffset {s : State} (hb : s.status.busy = false) (r : Csr) (v : Word) :
    csrWrite s (csrOffset r) v = csrStore s v r := by
  simp [csrWrite, hb]

theorem csrWrite_reserved {s : State} (hb : s.status.busy = false) {off : Nat} (h : 0x30 ≤ off) (v : Word) :
    csrWrite s off v = s := by
  simp [csrWrite, hb, csrAt_reserved h]

/-- The read-only registers are ID, PIXCAP, DATCAP and RESULT (10 R24 to R26, R35). -/
theorem csrWrite_readOnly {s : State} (hb : s.status.busy = false) {off : Nat} (v : Word)
    (h : off = 0x00 ∨ off = 0x04 ∨ off = 0x08 ∨ off = 0x2C) : csrWrite s off v = s := by
  rcases h with rfl | rfl | rfl | rfl
  · exact csrWrite_csrOffset hb .id v
  · exact csrWrite_csrOffset hb .pixcap v
  · exact csrWrite_csrOffset hb .datcap v
  · exact csrWrite_csrOffset hb .result v

/-- The STATUS layout of 10 R28. It does not rest on which numbers the codes have, so ERR may be any 4-bit value. -/
theorem statusWord_fields (st : Status) :
    (statusWord st).getLsbD 0 = st.busy ∧ (statusWord st).getLsbD 1 = st.done ∧
    (statusWord st).extractLsb' 2 2 = 0#2 ∧ (statusWord st).extractLsb' 4 4 = errNumber st.err ∧
    (statusWord st).getLsbD 8 = st.ovr ∧ (statusWord st).extractLsb' 9 23 = 0#23 ∧
    statusWord st &&& 0xFFFFFE0C#32 = 0#32 := by
  obtain ⟨busy, done, err, ovr⟩ := st
  simp only [statusWord]
  generalize errNumber err = e
  revert busy done ovr e
  decide

/-- A write of STATUS as 10 R29 words it: a 1 in bit 1 clears DONE and ERR, a 1 in bit 8 clears OVR. -/
theorem statusClear_of_idle {st : Status} (hb : st.busy = false) (v : Word) :
    statusClear st v =
      { busy := false, done := st.done && !v.getLsbD 1, err := if v.getLsbD 1 = true then .ok else st.err,
        ovr := st.ovr && !v.getLsbD 8 } := by
  unfold statusClear
  rw [hb]
  cases v.getLsbD 1 <;> cases v.getLsbD 8 <;> simp

/-- A legal CSR read is csrRead, whatever BUSY is (20 R62). -/
theorem hostRead_csr (s : State) {a : Nat} (halign : a % 4 = 0) (hmax : a ≤ 0xFC) :
    hostRead s .csr a 4 = .ok (.word (csrRead s a)) := by
  simp [hostRead, State.legal, halign, hmax]

/-- A legal CSR write is csrWrite, whatever BUSY is (20 R62). -/
theorem hostWrite_csr (s : State) {a : Nat} (halign : a % 4 = 0) (hmax : a ≤ 0xFC) (v : Word) :
    hostWrite s .csr a 4 v = .ok (csrWrite s a v) := by
  simp [hostWrite, State.legal, halign, hmax]

/-- A read that gives a value binds it to its name and changes nothing else (30 R96, R98). -/
theorem hostStep_read {s : State} {sp : Space} {a w : Nat} {x : String} {rest : List HostStmt} {v : HostValue}
    (hprog : s.prog = .read sp a w x :: rest) (hread : hostRead s sp a w = .ok v) :
    hostStep s = .next { s with prog := rest, names := bindName s.names x v } := by
  simp [hostStep, hprog, hread]

/-- A write that completes has the transaction's effect, and the statement is gone (30 R96, R98). -/
theorem hostStep_write {s t : State} {sp : Space} {a w : Nat} {d : Word} {rest : List HostStmt}
    (hprog : s.prog = .write sp a w d :: rest) (hwrite : hostWrite s sp a w d = .ok t) :
    hostStep s = .next { t with prog := rest } := by
  simp [hostStep, hprog, hwrite]

/-- Settles O44: the word at offset 0x10 is the STATUS word. -/
theorem statusWordHasItsFields : Obligations.StatusWordHasItsFields := by
  intro s
  obtain ⟨hbusy, hdone, hlow, herr, hovr, hhigh, -⟩ := statusWord_fields s.status
  exact ⟨hbusy, hdone, hlow, herr, hovr, hhigh⟩

/-- Settles O45: the write is statusClear while BUSY = 0 and is dropped while BUSY = 1. -/
theorem statusWriteClearsByOnes : Obligations.StatusWriteClearsByOnes := by
  refine ⟨fun s v hidle => ?_, fun s v hbusy => csrWrite_busy hbusy 0x10 v, fun s x rest hprog => ?_⟩
  · rw [← statusClear_of_idle hidle v]
    exact csrWrite_csrOffset hidle .status v
  · exact ⟨_, hostStep_read hprog (hostRead_csr s (by decide) (by decide))⟩

/-- Settles O46: no register is at a reserved offset. -/
theorem reservedOffsetsReadZero : Obligations.ReservedOffsetsReadZero := by
  refine ⟨fun s off hlow _ => csrRead_reserved s hlow, fun s off v hlow _ => ?_, fun s => ?_⟩
  · exact ⟨fun hidle => csrWrite_reserved hidle hlow v, fun hbusy => csrWrite_busy hbusy off v⟩
  · obtain ⟨-, -, -, -, -, -, hreserved⟩ := statusWord_fields s.status
    exact hreserved

/-- Settles O47: while BUSY = 0 the offsets named are those of the read-only registers and the reserved ones. -/
theorem csrWriteWhileBusyIsDropped : Obligations.CsrWriteWhileBusyIsDropped := by
  refine ⟨fun s off v hbusy => csrWrite_busy hbusy off v, fun s off v hidle hoff => ?_⟩
  rcases hoff with h | h | h | h | h
  · exact csrWrite_readOnly hidle v (.inl h)
  · exact csrWrite_readOnly hidle v (.inr (.inl h))
  · exact csrWrite_readOnly hidle v (.inr (.inr (.inl h)))
  · exact csrWrite_readOnly hidle v (.inr (.inr (.inr h)))
  · exact csrWrite_reserved hidle h v

end Sys2Proof.Machine
end

section
/-! PROOFS. What every command leaves unchanged (O8), and the core agent's step with it. -/

namespace Sys2Proof.Machine

/-- What no command writes: every field but STATUS, LEN_BYTES, RESULT, the memories and the draw counter (30 R93; log 4). -/
structure KeptByCommands (s t : State) : Prop where
  pixcap    : t.pixcap = s.pixcap
  datcap    : t.datcap = s.datcap
  cmd       : t.cmd = s.cmd
  bufLen    : t.bufLen = s.bufLen
  bitOffset : t.bitOffset = s.bitOffset
  dataLen   : t.dataLen = s.dataLen
  lenInLo   : t.lenInLo = s.lenInLo
  lenInHi   : t.lenInHi = s.lenInHi
  faults    : t.faults = s.faults
  prog      : t.prog = s.prog
  names     : t.names = s.names
  sched     : t.sched = s.sched

theorem exec_frame {i : Instr} {s t : State} (h : exec i s = .next t) : KeptByCommands s t := by
  rcases exec_next h with ⟨e, -, rfl⟩ | ⟨-, v, rfl⟩ | ⟨-, rfl⟩ | ⟨-, v, rfl⟩ | ⟨-, -, -, bs, m, -, -, rfl⟩ |
    ⟨-, -, -, bs, -, rfl⟩ | ⟨-, -, -, m, bs, m', -, -, -, rfl⟩ | ⟨-, -, -, -, v, w, m, m', -, -, rfl⟩ |
    ⟨-, -, L, bs, -, -, -, rfl⟩ <;> constructor <;> rfl

/-- The flags a command leaves (30 R99). -/
theorem exec_flags {i : Instr} {s t : State} (h : exec i s = .next t) :
    t.status.busy = false ∧ t.status.done = true ∧ t.status.ovr = s.status.ovr := by
  rcases exec_outcome i s with ⟨u, hu, hflags⟩ | hfault
  · obtain rfl : u = t := by simpa [hu] using h
    exact hflags
  · simp [hfault] at h

/-- Only LEN_TO_BYTES writes LEN_BYTES (10 R34). -/
theorem exec_lenBytes {i : Instr} {s t : State} (h : exec i s = .next t) (hi : i ≠ .lenToBytes) :
    t.lenBytes = s.lenBytes := by
  rcases exec_next h with ⟨e, -, rfl⟩ | ⟨hlen, -⟩ | ⟨-, rfl⟩ | ⟨-, v, rfl⟩ | ⟨-, -, -, bs, m, -, -, rfl⟩ |
    ⟨-, -, -, bs, -, rfl⟩ | ⟨-, -, -, m, bs, m', -, -, -, rfl⟩ | ⟨-, -, -, -, v, w, m, m', -, -, rfl⟩ |
    ⟨-, -, L, bs, -, -, -, rfl⟩
  · rfl
  · exact absurd hlen hi
  all_goals rfl

/-- RESULT is written only by the three commands of 10 R35, and only with code 0 (60 R198). -/
theorem exec_result {i : Instr} {s t : State} (h : exec i s = .next t) :
    t.result = s.result ∨ (t.status.err = .ok ∧ (i = .lenFromBytes ∨ i = .lsbReadInt ∨ i = .frameDecode)) := by
  rcases exec_next h with ⟨e, -, rfl⟩ | ⟨-, v, rfl⟩ | ⟨hi, rfl⟩ | ⟨hi, v, rfl⟩ | ⟨-, -, -, bs, m, -, -, rfl⟩ |
    ⟨-, -, -, bs, -, rfl⟩ | ⟨-, -, -, m, bs, m', -, -, -, rfl⟩ | ⟨-, -, -, -, v, w, m, m', -, -, rfl⟩ |
    ⟨hi, -, L, bs, -, -, -, rfl⟩
  -- an error, LEN_TO_BYTES
  · exact .inl rfl
  · exact .inl rfl
  -- LEN_FROM_BYTES, LSB_READ_INT
  · exact .inr ⟨rfl, .inl hi⟩
  · exact .inr ⟨rfl, .inr (.inl hi)⟩
  -- LSB_WRITE, LSB_READ_BYTES, FRAME_ENCODE completing and failing at the payload
  · exact .inl rfl
  · exact .inl rfl
  · exact .inl rfl
  · exact .inl rfl
  -- FRAME_DECODE
  · exact .inr ⟨rfl, .inr (.inr hi)⟩

/-- Only FRAME_ENCODE, failing at the payload, takes a free value (43 R171; log 4). -/
theorem exec_draws {i : Instr} {s t : State} (h : exec i s = .next t) (hi : i ≠ .frameEncode) : t.draws = s.draws := by
  rcases exec_next h with ⟨e, -, rfl⟩ | ⟨-, v, rfl⟩ | ⟨-, rfl⟩ | ⟨-, v, rfl⟩ | ⟨-, -, -, bs, m, -, -, rfl⟩ |
    ⟨-, -, -, bs, -, rfl⟩ | ⟨-, -, -, m, bs, m', -, -, -, rfl⟩ | ⟨hframe, -⟩ | ⟨-, -, L, bs, -, -, -, rfl⟩
  case inr.inr.inr.inr.inr.inr.inr.inl => exact absurd hframe hi
  all_goals rfl

/-- Settles O8: the frame common to all commands, and one lemma per register that only some of them write. -/
theorem commandsLeaveOtherRegisters : Obligations.CommandsLeaveOtherRegisters := by
  intro i s t h
  obtain ⟨hpixcap, hdatcap, hcmd, hbufLen, hbitOffset, hdataLen, hlenInLo, hlenInHi, hfaults, hprog, hnames, hsched⟩ :=
    exec_frame h
  obtain ⟨-, -, hovr⟩ := exec_flags h
  refine ⟨hpixcap, hdatcap, hcmd, hbufLen, hbitOffset, hdataLen, hlenInLo, hlenInHi, hovr, hfaults, hprog, hnames, hsched,
    exec_lenBytes h, fun hlen hint hdecode => ?_, exec_draws h⟩
  rcases exec_result h with hsame | ⟨-, hi⟩
  · exact hsame
  · exact absurd hi (by simp [hlen, hint, hdecode])

/-- The core agent's step that completes ran the decoded command, or completed an illegal word (30 R99, 60 R195). -/
theorem coreStep_next {s t : State} (h : coreStep s = .next t) :
    (∃ i, decode s.cmd = .instr i ∧ exec i s = .next t) ∨ t = s.complete .illegalCmd := by
  rcases coreStep_cases s with ⟨i, hdecode, hrun⟩ | ⟨w, -, hrun⟩ <;> rw [hrun] at h
  · exact .inl ⟨i, hdecode, h⟩
  · cases h
    exact .inr rfl

theorem coreStep_frame {s t : State} (h : coreStep s = .next t) : KeptByCommands s t := by
  rcases coreStep_next h with ⟨i, -, hi⟩ | rfl
  · exact exec_frame hi
  · constructor <;> rfl

theorem coreStep_flags {s t : State} (h : coreStep s = .next t) :
    t.status.busy = false ∧ t.status.done = true ∧ t.status.ovr = s.status.ovr := by
  rcases coreStep_next h with ⟨i, -, hi⟩ | rfl
  · exact exec_flags hi
  · exact ⟨rfl, rfl, rfl⟩

theorem coreStep_result {s t : State} (h : coreStep s = .next t) :
    t.result = s.result ∨ (t.status.err = .ok ∧
      (decode s.cmd = .instr .lenFromBytes ∨ decode s.cmd = .instr .lsbReadInt ∨ decode s.cmd = .instr .frameDecode)) := by
  rcases coreStep_next h with ⟨i, hdecode, hi⟩ | rfl
  · rw [hdecode]
    simpa using exec_result hi
  · exact .inl rfl

/-- The word of a command decodes to it (30 R91, R92). -/
@[simp] theorem decode_encode (i : Instr) : decode (encode i) = .instr i := by cases i <;> decide

theorem coreStep_of_decode {s : State} {i : Instr} (h : decode s.cmd = .instr i) : coreStep s = exec i s := by
  simp [coreStep, h]

end Sys2Proof.Machine
end

section
/-! PROOFS. What the host's turn may change, and what follows for every step: the constants, RESULT, CMD, BUSY and the
operands of a pending command (O37 to O40, O43, O48, O55). -/

namespace Sys2Proof.Machine

/-- What no host transaction writes: the registers that are read-only to it but STATUS, and the fault set. -/
structure KeepsReadOnly (s t : State) : Prop where
  pixcap : t.pixcap = s.pixcap
  datcap : t.datcap = s.datcap
  result : t.result = s.result
  faults : t.faults = s.faults

theorem csrWrite_keepsReadOnly (s : State) (off : Nat) (v : Word) : KeepsReadOnly s (csrWrite s off v) := by
  rcases csrWrite_cases s off v with ⟨-, h⟩ | ⟨-, h | ⟨-, h⟩ | ⟨-, h⟩ | h | h | h | h | h | h⟩ <;> rw [h] <;>
    exact ⟨rfl, rfl, rfl, rfl⟩

theorem hostWrite_keepsReadOnly {s u : State} {sp : Space} {a w : Nat} {d : Word} (h : hostWrite s sp a w d = .ok u) :
    KeepsReadOnly s u := by
  rcases hostWrite_ok h with ⟨-, -, -, -, rfl⟩ | ⟨-, -, -, -, rfl⟩ | ⟨-, -, -, -, rfl⟩
  · exact csrWrite_keepsReadOnly s a d
  · exact ⟨rfl, rfl, rfl, rfl⟩
  · exact ⟨rfl, rfl, rfl, rfl⟩

theorem hostStep_keepsReadOnly {s t : State} (h : hostStep s = .next t) : KeepsReadOnly s t := by
  rcases hostStep_next h with ⟨p, n, rfl⟩ | ⟨sp, a, w, d, rest, u, -, hu, rfl⟩
  · exact ⟨rfl, rfl, rfl, rfl⟩
  · obtain ⟨hpixcap, hdatcap, hresult, hfaults⟩ := hostWrite_keepsReadOnly hu
    exact ⟨hpixcap, hdatcap, hresult, hfaults⟩

/-- CMD and BUSY stay under a CSR write that is not an accepted command (10 R27). -/
theorem csrWrite_accepts_or_keeps (s : State) (off : Nat) (v : Word) :
    ((csrWrite s off v).cmd = s.cmd ∧ (csrWrite s off v).status.busy = s.status.busy) ∨
    (s.status.busy = false ∧ off = 0x0C ∧ csrWrite s off v = s.acceptCommand v) := by
  rcases csrWrite_cases s off v with ⟨-, h⟩ | ⟨hidle, h | ⟨hoff, h⟩ | ⟨-, h⟩ | h | h | h | h | h | h⟩
  · exact .inl (by rw [h]; exact ⟨rfl, rfl⟩)
  · exact .inl (by rw [h]; exact ⟨rfl, rfl⟩)
  · exact .inr ⟨hidle, hoff, h⟩
  all_goals exact .inl (by rw [h]; exact ⟨rfl, rfl⟩)

/-- The host's turn keeps CMD and BUSY, or is an accepted CMD write (10 R27). -/
theorem hostStep_accepts_or_keeps {s t : State} (h : hostStep s = .next t) :
    (t.cmd = s.cmd ∧ t.status.busy = s.status.busy) ∨
    (s.status.busy = false ∧ t.status.busy = true ∧ ∃ w rest, s.prog = .write .csr 0x0C 4 w :: rest ∧ t.cmd = w) := by
  rcases hostStep_next h with ⟨p, n, rfl⟩ | ⟨sp, a, w, d, rest, u, hprog, hu, rfl⟩
  · exact .inl ⟨rfl, rfl⟩
  · rcases hostWrite_ok hu with ⟨rfl, rfl, -, -, rfl⟩ | ⟨-, -, -, -, rfl⟩ | ⟨-, -, -, -, rfl⟩
    · rcases csrWrite_accepts_or_keeps s a d with hkeep | ⟨hidle, rfl, haccept⟩
      · exact .inl hkeep
      · exact .inr ⟨hidle, by simp [haccept], d, rest, hprog, by simp [haccept]⟩
    · exact .inl ⟨rfl, rfl⟩
    · exact .inl ⟨rfl, rfl⟩

/-- While BUSY = 1 the host's turn reaches nothing of the block but OVR (10 R37, 20 R67). -/
theorem hostStep_of_busy {s t : State} (hb : s.status.busy = true) (h : hostStep s = .next t) :
    t = { s with status := t.status, prog := t.prog, names := t.names } ∧
    t.status.done = s.status.done ∧ t.status.err = s.status.err := by
  rcases hostStep_next h with ⟨p, n, rfl⟩ | ⟨sp, a, w, d, rest, u, -, hu, rfl⟩
  · exact ⟨rfl, rfl, rfl⟩
  · rcases hostWrite_ok hu with ⟨-, -, -, -, rfl⟩ | ⟨-, -, -, hidle, -⟩ | ⟨-, -, -, hidle, -⟩
    · rw [csrWrite_busy hb]
      exact ⟨rfl, rfl, rfl⟩
    · simp [hb] at hidle
    · simp [hb] at hidle

/-- What no step changes, whoever's turn it is: the capacities and the fault set (10 R25, R26, R42). -/
theorem step_constants {s t : State} (h : step s = .next t) :
    t.pixcap = s.pixcap ∧ t.datcap = s.datcap ∧ t.faults = s.faults := by
  obtain ⟨-, ⟨-, hcore⟩ | ⟨-, rfl⟩ | hhost | ⟨-, rfl⟩⟩ := step_next h
  · have hframe := coreStep_frame hcore
    exact ⟨hframe.pixcap, hframe.datcap, hframe.faults⟩
  · exact ⟨rfl, rfl, rfl⟩
  · obtain ⟨hpixcap, hdatcap, -, hfaults⟩ := hostStep_keepsReadOnly hhost
    exact ⟨hpixcap, hdatcap, hfaults⟩
  · exact ⟨rfl, rfl, rfl⟩

/-- How CMD and BUSY change in a step: an accepted CMD write sets both, reset clears both, and a completion clears BUSY. -/
theorem step_cmd_busy {s t : State} (h : step s = .next t) :
    (t.cmd = s.cmd ∧ (t.status.busy = s.status.busy ∨ t.status.busy = false)) ∨
    (s.sched.head? = some .reset ∧ t.cmd = 0#32 ∧ t.status.busy = false) ∨
    (s.status.busy = false ∧ t.status.busy = true ∧ ∃ w rest, s.prog = .write .csr 0x0C 4 w :: rest ∧ t.cmd = w) := by
  obtain ⟨-, ⟨-, hcore⟩ | ⟨-, rfl⟩ | hhost | ⟨hreset, rfl⟩⟩ := step_next h
  · obtain ⟨hbusy, -, -⟩ := coreStep_flags hcore
    exact .inl ⟨(coreStep_frame hcore).cmd, .inr hbusy⟩
  · exact .inl ⟨rfl, .inl rfl⟩
  · rcases hostStep_accepts_or_keeps hhost with ⟨hcmd, hbusy⟩ | haccept
    · exact .inl ⟨hcmd, .inl hbusy⟩
    · exact .inr (.inr haccept)
  · exact .inr (.inl ⟨hreset, rfl, rfl⟩)

/-- With a valid configuration, no turn named and BUSY = 0, the step is the host's (log 3). -/
theorem step_of_idle {s : State} (hcaps : Config.capsValid s.pixcap s.datcap = true) (hsched : s.sched = [])
    (hidle : s.status.busy = false) : step s = hostStep s := by
  simp [step_of_capsValid hcaps, nextTurn, hsched, hidle, takeTurn]

/-- With a valid configuration, no turn named and BUSY = 1, the step is the core agent's (log 3). -/
theorem step_of_pending {s : State} (hcaps : Config.capsValid s.pixcap s.datcap = true) (hsched : s.sched = [])
    (hbusy : s.status.busy = true) : step s = coreStep s := by
  simp [step_of_capsValid hcaps, nextTurn, hsched, hbusy, takeTurn]

/-- Settles O37: the fault set is one of the constants of a step, and faultsAfter adds the fault recorded. -/
theorem faultsAreNeverRemoved : Obligations.FaultsAreNeverRemoved := by
  refine ⟨fun p d => rfl, fun s t h => ?_, resetEvent_faults, fun s => ?_⟩
  · obtain ⟨-, -, hfaults⟩ := step_constants h
    exact hfaults
  · exact ⟨fun h => by rw [h]; rfl, fun h => by rw [h]; rfl, fun h => by rw [h]; rfl⟩

/-- Settles O38: the host's turn keeps RESULT, and the core agent's is coreStep_result. -/
theorem resultIsWrittenOnlyOnSuccess : Obligations.ResultIsWrittenOnlyOnSuccess := by
  intro s t h
  obtain ⟨-, ⟨hbusy, hcore⟩ | ⟨-, rfl⟩ | hhost | ⟨hreset, rfl⟩⟩ := step_next h
  · obtain ⟨-, hdone, -⟩ := coreStep_flags hcore
    rcases coreStep_result hcore with hsame | ⟨herr, hi⟩
    · exact .inl hsame
    · exact .inr (.inr ⟨hbusy, hdone, herr, hi⟩)
  · exact .inl rfl
  · exact .inl (hostStep_keepsReadOnly hhost).result
  · exact .inr (.inl ⟨hreset, rfl⟩)

/-- Settles O39: of the ways CMD and BUSY change, only an accepted CMD write sets BUSY. -/
theorem busyComesOnlyFromACommandWrite : Obligations.BusyComesOnlyFromACommandWrite := by
  intro s t h hidle hbusy
  rcases step_cmd_busy h with ⟨-, hsame | hclear⟩ | ⟨-, -, hclear⟩ | ⟨-, -, haccept⟩
  · simp [hidle, hbusy] at hsame
  · simp [hbusy] at hclear
  · simp [hbusy] at hclear
  · exact haccept

/-- Settles O40: a completion and a reset clear BUSY, so the step was the host's. -/
theorem pendingCommandKeepsItsOperands : Obligations.PendingCommandKeepsItsOperands := by
  intro s t h hbefore hafter
  obtain ⟨-, ⟨-, hcore⟩ | ⟨hidle, -⟩ | hhost | ⟨-, rfl⟩⟩ := step_next h
  · obtain ⟨hclear, -, -⟩ := coreStep_flags hcore
    simp [hafter] at hclear
  · simp [hbefore] at hidle
  · obtain ⟨hframe, hdone, herr⟩ := hostStep_of_busy (s := { s with sched := s.sched.tail }) hbefore hhost
    refine ⟨?_, hdone, herr⟩
    rw [hframe]
  · simp [Status.reset] at hafter

/-- Settles O43: the write by the offset of CMD, and the step by the ways CMD changes. -/
theorem commandWriteIsAcceptedOnlyWhenIdle : Obligations.CommandWriteIsAcceptedOnlyWhenIdle := by
  refine ⟨fun s w hidle => csrWrite_csrOffset hidle .cmd w, fun s w hbusy => csrWrite_busy hbusy 0x0C w,
    fun s x rest hprog => ?_, fun s t h => ?_, fun p d => rfl⟩
  · have hread : hostRead s .csr 0x0C 4 = .ok (.word s.cmd) := hostRead_csr s (by decide) (by decide)
    exact ⟨hread, _, hostStep_read hprog hread⟩
  · rcases step_cmd_busy h with ⟨hcmd, -⟩ | ⟨hreset, hcmd, -⟩ | haccept
    · exact .inl hcmd
    · exact .inr (.inl ⟨hreset, hcmd⟩)
    · exact .inr (.inr haccept)

/-- Settles O48: the three are read-only, and the capacities are constants of a step. -/
theorem identityAndCapacitiesAreConstant : Obligations.IdentityAndCapacitiesAreConstant := by
  refine ⟨fun s => csrRead_csrOffset s .id, fun p d => ⟨csrRead_csrOffset _ .pixcap, csrRead_csrOffset _ .datcap⟩,
    fun s t h => ?_, fun s off v hoff hidle => csrWrite_readOnly hidle v (by omega)⟩
  obtain ⟨hpixcap, hdatcap, -⟩ := step_constants h
  exact ⟨hpixcap, hdatcap⟩

/-- Settles O55: the host's turn accepts the word, and BUSY = 1 makes the next turn the core agent's. -/
theorem issuedCommandRunsNext : Obligations.IssuedCommandRunsNext := by
  intro s i rest hcaps hidle hsched hprog
  have hwrite : hostWrite s .csr 0x0C 4 (encode i) = .ok (s.acceptCommand (encode i)) := by
    rw [hostWrite_csr s (by decide) (by decide)]
    exact congrArg Except.ok (csrWrite_csrOffset hidle .cmd (encode i))
  refine ⟨{ s with cmd := encode i, status := statusAccept s.status, prog := rest }, ?_, rfl, ?_⟩
  · rw [step_of_idle hcaps hsched hidle]
    exact hostStep_write hprog hwrite
  · exact Eq.trans (step_of_pending hcaps hsched rfl) (coreStep_of_decode (decode_encode i))

end Sys2Proof.Machine
end

section
/-! PROOFS. What the host port does with a byte or a register, and what the host's turn makes of it (O49 to O52, O54, O58,
O59). -/

namespace Sys2Proof.Machine

/-- A one-byte write takes the byte that WB put in bits 7:0 of its word (log 7). -/
@[simp] theorem lowByte_setWidth (b : Byte) : (b.setWidth 32).extractLsb' 0 8 = b := by
  ext i hi
  simp [show i < 32 by omega, hi]

/-- A legal DAT read is readByte of DAT (20 R63). -/
theorem hostRead_dat (s : State) {a : Nat} (ha : a < s.datcap.toNat) : hostRead s .dat a 1 = readByte s s.dat a := by
  simp [hostRead, State.legal, ha]

theorem hostRead_pix (s : State) {a : Nat} (ha : a < s.pixcap.toNat) : hostRead s .pix a 1 = readByte s s.pix a := by
  simp [hostRead, State.legal, ha]

/-- A legal DAT write stores bits 7:0 of its word, unless BUSY = 1 (20 R63, R65). -/
theorem hostWrite_dat (s : State) {a : Nat} (ha : a < s.datcap.toNat) (v : Word) :
    hostWrite s .dat a 1 v = writeByte s (s.setDat (Memory.write s.dat a (v.extractLsb' 0 8))) := by
  simp [hostWrite, State.legal, ha]

theorem hostWrite_pix (s : State) {a : Nat} (ha : a < s.pixcap.toNat) (v : Word) :
    hostWrite s .pix a 1 v = writeByte s (s.setPix (Memory.write s.pix a (v.extractLsb' 0 8))) := by
  simp [hostWrite, State.legal, ha]

theorem readByte_busy {s : State} (hb : s.status.busy = true) (m : Memory) (a : Nat) :
    readByte s m a = .error .hostRace := if_pos hb

theorem writeByte_busy {s : State} (hb : s.status.busy = true) (t : State) : writeByte s t = .error .hostRace :=
  if_pos hb

/-- While BUSY = 0 a byte read gives the byte if its mark is 1, and else records UNINIT_READ (20 R66). -/
theorem readByte_idle {s : State} (hb : s.status.busy = false) (m : Memory) (a : Nat) :
    (∀ b, Memory.read m a = some b → readByte s m a = .ok (.byte b)) ∧
    (Memory.read m a = none → readByte s m a = .error .uninitRead) :=
  ⟨fun b h => by simp [readByte, hb, h], fun h => by simp [readByte, hb, h]⟩

theorem writeByte_idle {s : State} (hb : s.status.busy = false) (t : State) : writeByte s t = .ok t := by
  simp [writeByte, hb]

/-- A byte access is never a bus error: only legality is (20 R64). -/
theorem readByte_ne_busError (s : State) (m : Memory) (a : Nat) : readByte s m a ≠ .error .hostBusError := by
  unfold readByte
  split
  · simp
  · split <;> simp

theorem writeByte_ne_busError (s t : State) : writeByte s t ≠ .error .hostBusError := by
  unfold writeByte
  split <;> simp

/-- A read is a bus error exactly when it is illegal (20 R64). -/
theorem hostRead_busError_iff (s : State) (sp : Space) (a w : Nat) :
    hostRead s sp a w = .error .hostBusError ↔ ¬s.legal sp a w = true := by
  unfold hostRead
  split
  · next hlegal => cases sp <;> simp [hlegal, readByte_ne_busError]
  · next hillegal => simp [hillegal]

theorem hostWrite_busError_iff (s : State) (sp : Space) (a w : Nat) (v : Word) :
    hostWrite s sp a w v = .error .hostBusError ↔ ¬s.legal sp a w = true := by
  unfold hostWrite
  split
  · next hlegal => cases sp <;> simp [hlegal, writeByte_ne_busError]
  · next hillegal => simp [hillegal]

/-- A read that faults ends the run (60 R202). -/
theorem hostStep_read_fault {s : State} {sp : Space} {a w : Nat} {x : String} {rest : List HostStmt} {f : Fault}
    (hprog : s.prog = .read sp a w x :: rest) (hread : hostRead s sp a w = .error f) : hostStep s = .fault f := by
  simp [hostStep, hprog, hread]

theorem hostStep_write_fault {s : State} {sp : Space} {a w : Nat} {d : Word} {rest : List HostStmt} {f : Fault}
    (hprog : s.prog = .write sp a w d :: rest) (hwrite : hostWrite s sp a w d = .error f) : hostStep s = .fault f := by
  simp [hostStep, hprog, hwrite]

/-- A program that has ended does nothing (30 R98). -/
theorem hostStep_ended {s : State} (hprog : s.prog = []) : hostStep s = .next s := by
  simp [hostStep, hprog]

@[simp] theorem lookup_bindName_same (names : List (String × HostValue)) (x : String) (v : HostValue) :
    (bindName names x v).lookup x = some v := by
  simp [bindName]

/-- Dropping the entries of one name leaves what every other name is bound to. -/
theorem lookup_filter_ne (names : List (String × HostValue)) {x y : String} (h : y ≠ x) :
    (names.filter fun e => decide (e.1 ≠ x)).lookup y = names.lookup y := by
  induction names with
  | nil => rfl
  | cons e names ih =>
    obtain ⟨z, v⟩ := e
    by_cases hz : z = x
    · subst hz
      simp [List.lookup_cons, beq_false_of_ne h, ← ih]
    · simp [List.lookup_cons, hz, ← ih]

theorem lookup_bindName_other (names : List (String × HostValue)) {x y : String} (v : HostValue) (h : y ≠ x) :
    (bindName names x v).lookup y = names.lookup y := by
  rw [bindName, List.lookup_cons, beq_false_of_ne h]
  exact lookup_filter_ne names h

/-- With a valid configuration, the step is the host's when its turn is named, and when no turn is and BUSY = 0 (log 3). -/
theorem step_of_hostTurn {s : State} (hcaps : Config.capsValid s.pixcap s.datcap = true)
    (hturn : s.sched.head? = some .host ∨ s.sched = [] ∧ s.status.busy = false) :
    step s = hostStep { s with sched := s.sched.tail } := by
  rcases hturn with hhead | ⟨hsched, hidle⟩
  · obtain ⟨rest, hsched⟩ := List.head?_eq_some_iff.1 hhead
    simp [step_of_capsValid hcaps, nextTurn, hsched, takeTurn]
  · have hsame : { s with sched := s.sched.tail } = s := by cases s; simp_all
    rw [hsame, step_of_idle hcaps hsched hidle]

/-- The six registers that a host write stores a word in (20 R62). -/
abbrev operandRegister (r : Csr) : Prop :=
  r = .bufLen ∨ r = .bitOffset ∨ r = .dataLen ∨ r = .lenInLo ∨ r = .lenInHi ∨ r = .lenBytes

/-- The offsets 0x14 to 0x28 are those of the six operand registers (10_state.md section 2). -/
theorem operandRegister_at {off : Nat}
    (h : off = 0x14 ∨ off = 0x18 ∨ off = 0x1C ∨ off = 0x20 ∨ off = 0x24 ∨ off = 0x28) :
    ∃ r, operandRegister r ∧ off = csrOffset r := by
  rcases h with rfl | rfl | rfl | rfl | rfl | rfl
  · exact ⟨.bufLen, by decide, rfl⟩
  · exact ⟨.bitOffset, by decide, rfl⟩
  · exact ⟨.dataLen, by decide, rfl⟩
  · exact ⟨.lenInLo, by decide, rfl⟩
  · exact ⟨.lenInHi, by decide, rfl⟩
  · exact ⟨.lenBytes, by decide, rfl⟩

/-- An operand register holds the word stored in it, and no other register changes (10 R30 to R34). -/
theorem csrValue_csrStore {r : Csr} (hr : operandRegister r) (s : State) (v : Word) (r' : Csr) :
    csrValue (csrStore s v r) r' = if r' = r then v else csrValue s r' := by
  rcases hr with rfl | rfl | rfl | rfl | rfl | rfl <;> cases r' <;> rfl

/-- Storing to an operand register changes neither STATUS nor a memory. -/
theorem csrStore_operand_frame {r : Csr} (hr : operandRegister r) (s : State) (v : Word) :
    (csrStore s v r).status = s.status ∧ (csrStore s v r).pix = s.pix ∧ (csrStore s v r).dat = s.dat := by
  rcases hr with rfl | rfl | rfl | rfl | rfl | rfl <;> exact ⟨rfl, rfl, rfl⟩

/-- What an offset reads as after a store to an operand register. -/
theorem csrRead_csrStore {r : Csr} (hr : operandRegister r) (s : State) (v : Word) (off : Nat) :
    csrRead (csrStore s v r) off = if off = csrOffset r then v else csrRead s off := by
  cases hat : csrAt off with
  | none =>
    have hne : off ≠ csrOffset r := fun h => by simp [h] at hat
    simp [csrRead, hat, hne]
  | some r' =>
    obtain rfl := csrAt_some hat
    have hinj : csrOffset r' = csrOffset r ↔ r' = r :=
      ⟨fun h => by simpa using congrArg csrAt h, congrArg csrOffset⟩
    simp [csrValue_csrStore hr, hinj]

/-- Settles O49: the six offsets are those of the operand registers. -/
theorem operandRegistersHoldWhatIsWritten : Obligations.OperandRegistersHoldWhatIsWritten := by
  intro s off v hidle hoff
  have halign : off % 4 = 0 := by omega
  have hmax : off ≤ 0xFC := by omega
  obtain ⟨r, hr, rfl⟩ := operandRegister_at hoff
  refine ⟨hostWrite_csr s halign hmax v, ?_, ?_, ?_⟩
  · rw [hostRead_csr _ halign hmax, csrWrite_csrOffset hidle, csrRead_csrStore hr, if_pos rfl]
  · intro o ho
    rw [csrWrite_csrOffset hidle, csrRead_csrStore hr, if_neg ho]
  · rw [csrWrite_csrOffset hidle]
    exact csrStore_operand_frame hr s v

/-- Settles O50: a legal byte access while BUSY = 0 is the memory's own write or read. -/
theorem hostByteAccess : Obligations.HostByteAccess := by
  refine ⟨fun s a v hidle ha => ?_, fun s a v hidle ha => ?_, fun s a hidle ha => ?_, fun s a hidle ha => ?_,
    fun s t sp a x rest hprog hstep => ?_⟩
  · refine ⟨Memory.write s.dat a v, ?_, fun c => by simp [Memory.read_write, eq_comm]⟩
    rw [hostWrite_dat s ha, writeByte_idle hidle, lowByte_setWidth]
    rfl
  · refine ⟨Memory.write s.pix a v, ?_, fun c => by simp [Memory.read_write, eq_comm]⟩
    rw [hostWrite_pix s ha, writeByte_idle hidle, lowByte_setWidth]
    rfl
  · rw [hostRead_dat s ha]
    exact readByte_idle hidle s.dat a
  · rw [hostRead_pix s ha]
    exact readByte_idle hidle s.pix a
  · cases hread : hostRead s sp a 1 with
    | error f => simp [hostStep_read_fault hprog hread] at hstep
    | ok v =>
      rw [hostStep_read hprog hread] at hstep
      cases hstep
      rfl

/-- Settles O51: the transaction is legal, so BUSY = 1 makes it a race. -/
theorem hostAccessWhileBusyIsARace : Obligations.HostAccessWhileBusyIsARace := by
  intro s sp a v x rest hbusy hlegal
  rcases hlegal with ⟨rfl, ha⟩ | ⟨rfl, ha⟩
  · exact ⟨fun hprog => hostStep_read_fault hprog ((hostRead_dat s ha).trans (readByte_busy hbusy _ _)),
      fun hprog => hostStep_write_fault hprog ((hostWrite_dat s ha v).trans (writeByte_busy hbusy _))⟩
  · exact ⟨fun hprog => hostStep_read_fault hprog ((hostRead_pix s ha).trans (readByte_busy hbusy _ _)),
      fun hprog => hostStep_write_fault hprog ((hostWrite_pix s ha v).trans (writeByte_busy hbusy _))⟩

/-- Settles O52: a bus error is an illegal transaction, and legality is what 20 R62 and R63 say. -/
theorem illegalTransactionsAreBusErrors : Obligations.IllegalTransactionsAreBusErrors := by
  intro s a w v
  simp only [hostRead_busError_iff, hostWrite_busError_iff, State.legal, decide_eq_true_eq, and_self]

/-- Settles O54: the host's turn by its first statement and the outcome of that statement's transaction. -/
theorem hostTurnTakesOneTransaction : Obligations.HostTurnTakesOneTransaction := by
  intro s hcaps hturn
  refine ⟨step_of_hostTurn hcaps hturn, hostStep_ended, fun sp a w d rest hprog => ?_, fun sp a w x rest hprog => ?_⟩
  · exact ⟨fun t hwrite => hostStep_write hprog hwrite, fun f hwrite => hostStep_write_fault hprog hwrite⟩
  · exact ⟨fun v hread => ⟨bindName s.names x v, hostStep_read hprog hread, lookup_bindName_same _ x v,
      fun y hy => lookup_bindName_other _ v hy⟩, fun f hread => hostStep_read_fault hprog hread⟩

/-- Settles O58: the port by hostRead_csr and hostWrite_csr, the register file by the offset of each register. -/
theorem hostPortReachesEveryRegister : Obligations.HostPortReachesEveryRegister := by
  refine ⟨fun s a v halign hmax => ⟨hostRead_csr s halign hmax, hostWrite_csr s halign hmax v⟩,
    fun s a v rest halign hmax hprog => hostStep_write hprog (hostWrite_csr s halign hmax v),
    fun s a x rest halign hmax hprog => ⟨_, hostStep_read hprog (hostRead_csr s halign hmax)⟩,
    fun s => ?_, fun s v hidle => ?_⟩
  · have hread := csrRead_csrOffset s
    exact ⟨hread .id, hread .pixcap, hread .datcap, hread .cmd, hread .status, hread .bufLen, hread .bitOffset,
      hread .dataLen, hread .lenInLo, hread .lenInHi, hread .lenBytes, hread .result⟩
  · have hwrite (r : Csr) : csrWrite s (csrOffset r) v = csrStore s v r := csrWrite_csrOffset hidle r v
    exact ⟨hwrite .bufLen, hwrite .bitOffset, hwrite .dataLen, hwrite .lenInLo, hwrite .lenInHi, hwrite .lenBytes⟩

/-- Settles O59: the byte stored is bits 7:0 of the word, and those are the byte's own in the word it is widened to. -/
theorem oneByteWriteTakesTheLowByte : Obligations.OneByteWriteTakesTheLowByte := by
  intro s sp a v hsp
  rcases hsp with rfl | rfl
  · simp only [hostWrite, lowByte_setWidth]
  · simp only [hostWrite, lowByte_setWidth]

end Sys2Proof.Machine
end

section
/-! PROOFS. Which bytes a command stores to (O9), and when it reads a byte that was never written (O26). -/

namespace Sys2Proof.Machine

/-- The PIX bytes a command changes: LSB_WRITE in its window, FRAME_ENCODE in the length's and the payload's (30 R93). -/
theorem exec_changes_pix {i : Instr} {s t : State} (h : exec i s = .next t) {a : Nat}
    (hne : Memory.read t.pix a ≠ Memory.read s.pix a) :
    (i = .lsbWrite ∧ s.bitOffset.toNat ≤ a ∧ a < s.bitOffset.toNat + 8 * s.dataLen.toNat) ∨
    (i = .frameEncode ∧ a < 32 + 8 * s.dataLen.toNat) := by
  rcases exec_next h with ⟨e, -, rfl⟩ | ⟨-, v, rfl⟩ | ⟨-, rfl⟩ | ⟨-, v, rfl⟩ | ⟨hi, -, -, bs, m, hlen, hm, rfl⟩ |
    ⟨-, -, -, bs, -, rfl⟩ | ⟨hi, -, -, m, bs, m', hlen, hm, hm', rfl⟩ | ⟨hi, -, -, -, v, w, m, m', hm, hm', rfl⟩ |
    ⟨-, -, L, bs, -, -, -, rfl⟩
  -- LSB_WRITE
  case inr.inr.inr.inr.inl =>
    refine .inl ⟨hi, ?_⟩
    by_contra hout
    exact hne (writeCarriers_outside hm (by simp; omega))
  -- FRAME_ENCODE: the length, then the payload
  case inr.inr.inr.inr.inr.inr.inl =>
    refine .inr ⟨hi, ?_⟩
    by_contra hout
    exact hne ((writeCarriers_outside hm' (by simp; omega)).trans (writeCarriers_outside hm (by simp; omega)))
  -- FRAME_ENCODE failing at the payload: the length, then the free draw in its place
  case inr.inr.inr.inr.inr.inr.inr.inl =>
    refine .inr ⟨hi, ?_⟩
    by_contra hout
    exact hne ((writeCarriers_outside hm' (by simp; omega)).trans (writeCarriers_outside hm (by simp; omega)))
  all_goals exact absurd rfl hne

/-- Bytes stored from address 0 on change no byte at or above their number. -/
theorem lt_length_of_writeSeq_ne {m : Memory} {bs : List Byte} {a : Nat}
    (hne : Memory.read (Memory.writeSeq m 0 bs) a ≠ Memory.read m a) : a < bs.length := by
  by_contra hout
  exact hne (by rw [Memory.read_writeSeq, if_neg (by omega)])

/-- The DAT bytes a command changes: LSB_READ_BYTES in [0, DATA_LEN), FRAME_DECODE in [0, L) (30 R93). -/
theorem exec_changes_dat {i : Instr} {s t : State} (h : exec i s = .next t) {a : Nat}
    (hne : Memory.read t.dat a ≠ Memory.read s.dat a) :
    (i = .lsbReadBytes ∧ a < s.dataLen.toNat) ∨ (i = .frameDecode ∧ ∃ L : Word, spells s.pix 0 L ∧ a < L.toNat) := by
  rcases exec_next h with ⟨e, -, rfl⟩ | ⟨-, v, rfl⟩ | ⟨-, rfl⟩ | ⟨-, v, rfl⟩ | ⟨-, -, -, bs, m, -, -, rfl⟩ |
    ⟨hi, -, -, bs, hlen, rfl⟩ | ⟨-, -, -, m, bs, m', -, -, -, rfl⟩ | ⟨-, -, -, -, v, w, m, m', -, -, rfl⟩ |
    ⟨hi, -, L, bs, hL, -, hlen, rfl⟩
  -- LSB_READ_BYTES
  case inr.inr.inr.inr.inr.inl => exact .inl ⟨hi, hlen ▸ lt_length_of_writeSeq_ne hne⟩
  -- FRAME_DECODE
  case inr.inr.inr.inr.inr.inr.inr.inr => exact .inr ⟨hi, L, hL, hlen ▸ lt_length_of_writeSeq_ne hne⟩
  all_goals exact absurd rfl hne

/-- Settles O9: a byte that changed is in a window of the command's, and carriers 0 to 31 spell one number only. -/
theorem commandsLeaveOtherBytes : Obligations.CommandsLeaveOtherBytes := by
  intro i s t h
  refine ⟨fun hwrite hencode a => ?_, fun hbytes hdecode a => ?_, fun hi a ha => ?_, fun hi a ha => ?_, fun hi a ha => ?_,
    fun hi L hL a ha => ?_⟩ <;> by_contra hne
  · simpa [hwrite, hencode] using exec_changes_pix h hne
  · simpa [hbytes, hdecode] using exec_changes_dat h hne
  · have hwindow := exec_changes_pix h hne
    simp only [hi, reduceCtorEq, false_and, true_and, or_false] at hwindow
    omega
  · have hwindow := exec_changes_pix h hne
    simp only [hi, reduceCtorEq, false_and, true_and, false_or] at hwindow
    omega
  · have hwindow := exec_changes_dat h hne
    simp only [hi, reduceCtorEq, false_and, true_and, or_false] at hwindow
    omega
  · have hwindow := exec_changes_dat h hne
    simp only [hi, reduceCtorEq, false_and, true_and, false_or] at hwindow
    obtain ⟨L', hL', hlt⟩ := hwindow
    obtain rfl := spells_unique hL hL'
    omega

/-- The bytes a source yielded were written (41 R130). -/
theorem initOn_of_gatherBytes {m : Memory} {n : Nat} {bs : List Byte} (h : gatherBytes (Memory.read m) 0 n = some bs) :
    m.initOn 0 n :=
  gatherBytes_isSome.1 (by simp [h])

/-- The carriers that were read were written. -/
theorem initOn_of_readCarriers {m : Memory} {p n : Nat} {xs : List Bool} (h : readCarriers m p n = some xs) :
    m.initOn p n :=
  readCarriers_isSome.1 (by simp [h])

/-- The carriers that took the stream of n bytes were written before (20 R70). -/
theorem initOn_of_writeCarriers {m m' : Memory} {p n : Nat} {bs : List Byte}
    (h : writeCarriers m p (bitStream bs) = some m') (hn : bs.length = n) : m.initOn p (8 * n) := by
  have hinit := writeCarriers_isSome.1 (show (writeCarriers m p (bitStream bs)).isSome = true by simp [h])
  rwa [bitStream_length, hn] at hinit

theorem sameUpperBits_symm {m m' : Memory} (h : sameUpperBits m m') : sameUpperBits m' m := fun a => (h a).symm

theorem execLsbWrite_fault_iff (s : State) :
    execLsbWrite s = .fault .uninitRead ↔
      s.bufLen.toNat ≤ s.pixcap.toNat ∧ s.bitOffset.toNat + 8 * s.dataLen.toNat ≤ s.bufLen.toNat ∧
      ¬(s.dat.initOn 0 s.dataLen.toNat ∧ s.pix.initOn s.bitOffset.toNat (8 * s.dataLen.toNat)) := by
  rcases execLsbWrite_cases s with ⟨hcap, h⟩ | ⟨-, hfit, h⟩ | ⟨-, -, bs, m, hg, hm, h⟩ | ⟨hcap, hfit, hun, h⟩
  · exact iff_of_false (by simp [h]) fun ⟨hcap', _⟩ => absurd hcap' (by omega)
  · exact iff_of_false (by simp [h]) fun ⟨_, hfit', _⟩ => absurd hfit' (by omega)
  · exact iff_of_false (by simp [h]) fun ⟨_, _, hun⟩ =>
      hun ⟨initOn_of_gatherBytes hg, initOn_of_writeCarriers hm (gatherBytes_some hg).1⟩
  · exact iff_of_true h ⟨hcap, hfit, hun⟩

theorem execLsbReadInt_fault_iff (s : State) :
    execLsbReadInt s = .fault .uninitRead ↔
      s.bufLen.toNat ≤ s.pixcap.toNat ∧ s.bitOffset.toNat + 32 ≤ s.bufLen.toNat ∧
      ¬s.pix.initOn s.bitOffset.toNat 32 := by
  rcases execLsbReadInt_cases s with ⟨hcap, h⟩ | ⟨-, hfit, h⟩ | ⟨-, -, xs, hxs, h⟩ | ⟨hcap, hfit, hun, h⟩
  · exact iff_of_false (by simp [h]) fun ⟨hcap', _⟩ => absurd hcap' (by omega)
  · exact iff_of_false (by simp [h]) fun ⟨_, hfit', _⟩ => absurd hfit' (by omega)
  · exact iff_of_false (by simp [h]) fun ⟨_, _, hun⟩ => hun (initOn_of_readCarriers hxs)
  · exact iff_of_true h ⟨hcap, hfit, hun⟩

theorem execLsbReadBytes_fault_iff (s : State) :
    execLsbReadBytes s = .fault .uninitRead ↔
      s.bufLen.toNat ≤ s.pixcap.toNat ∧ s.bitOffset.toNat + 8 * s.dataLen.toNat ≤ s.bufLen.toNat ∧
      ¬s.pix.initOn s.bitOffset.toNat (8 * s.dataLen.toNat) := by
  rcases execLsbReadBytes_cases s with ⟨hcap, h⟩ | ⟨-, hfit, h⟩ | ⟨-, -, xs, hxs, h⟩ | ⟨hcap, hfit, hun, h⟩
  · exact iff_of_false (by simp [h]) fun ⟨hcap', _⟩ => absurd hcap' (by omega)
  · exact iff_of_false (by simp [h]) fun ⟨_, hfit', _⟩ => absurd hfit' (by omega)
  · exact iff_of_false (by simp [h]) fun ⟨_, _, hun⟩ => hun (initOn_of_readCarriers hxs)
  · exact iff_of_true h ⟨hcap, hfit, hun⟩

/-- The length's carriers are read before the payload's check; after it the payload's bytes and carriers are (43 R170). -/
theorem execFrameEncode_fault_iff (s : State) :
    execFrameEncode s = .fault .uninitRead ↔
      s.bufLen.toNat ≤ s.pixcap.toNat ∧ 32 ≤ s.bufLen.toNat ∧
      (¬s.pix.initOn 0 32 ∨ 32 + 8 * s.dataLen.toNat ≤ s.bufLen.toNat ∧
        ¬(s.dat.initOn 0 s.dataLen.toNat ∧ s.pix.initOn 32 (8 * s.dataLen.toNat))) := by
  rcases execFrameEncode_cases s with ⟨hcap, h⟩ | ⟨-, h32, h⟩ | ⟨-, -, hfit, m, m', hm, -, h⟩ |
    ⟨-, -, m, bs, m', hm, hg, hm', h⟩ | ⟨hcap, h32, hun, h⟩
  · exact iff_of_false (by simp [h]) fun ⟨hcap', _⟩ => absurd hcap' (by omega)
  · exact iff_of_false (by simp [h]) fun ⟨_, h32', _⟩ => absurd h32' (by omega)
  · refine iff_of_false (by simp [h]) fun ⟨_, _, hun⟩ => ?_
    rcases hun with hlength | ⟨hfit', -⟩
    · exact hlength (initOn_of_writeCarriers hm (wordBytes_length _))
    · exact absurd hfit' (by omega)
  · refine iff_of_false (by simp [h]) fun ⟨_, _, hun⟩ => ?_
    rcases hun with hlength | ⟨-, hpayload⟩
    · exact hlength (initOn_of_writeCarriers hm (wordBytes_length _))
    · have hm_init := initOn_of_writeCarriers hm' (gatherBytes_some hg).1
      have hback := sameUpperBits_symm (writeCarriers_sameUpperBits hm)
      exact hpayload ⟨initOn_of_gatherBytes hg, initOn_of_sameUpperBits hback hm_init⟩
  · refine iff_of_true h ⟨hcap, h32, ?_⟩
    by_cases hlength : s.pix.initOn 0 32
    · exact .inr ⟨Nat.le_of_not_lt fun hfit => hun ⟨hlength, .inl hfit⟩, fun hpayload => hun ⟨hlength, .inr hpayload⟩⟩
    · exact .inl hlength

/-- The length's carriers are read first, and then those of the payload whose length they spell (43 R172). -/
theorem execFrameDecode_fault_iff (s : State) :
    execFrameDecode s = .fault .uninitRead ↔
      s.bufLen.toNat ≤ s.pixcap.toNat ∧ 32 ≤ s.bufLen.toNat ∧
      (¬s.pix.initOn 0 32 ∨ ∃ L : Word, spells s.pix 0 L ∧ 32 + 8 * L.toNat ≤ s.bufLen.toNat ∧
        ¬s.pix.initOn 32 (8 * L.toNat)) := by
  rcases execFrameDecode_cases s with ⟨hcap, h⟩ | ⟨-, h32, h⟩ | ⟨hcap, h32, hun, h⟩ | ⟨hcap, h32, xs, hxs, hpayload⟩
  · exact iff_of_false (by simp [h]) fun ⟨hcap', _⟩ => absurd hcap' (by omega)
  · exact iff_of_false (by simp [h]) fun ⟨_, h32', _⟩ => absurd h32' (by omega)
  · exact iff_of_true h ⟨hcap, h32, .inl hun⟩
  · obtain ⟨hspells, hvalue⟩ := readCarriers_spells hxs
    -- the length's carriers are written, and the L they spell is the value read
    have hL : (¬s.pix.initOn 0 32 ∨ ∃ L : Word, spells s.pix 0 L ∧ 32 + 8 * L.toNat ≤ s.bufLen.toNat ∧
        ¬s.pix.initOn 32 (8 * L.toNat)) ↔
        32 + 8 * bitsValue xs ≤ s.bufLen.toNat ∧ ¬s.pix.initOn 32 (8 * bitsValue xs) := by
      rw [← hvalue]
      refine ⟨fun hun => ?_, fun hun => .inr ⟨_, hspells, hun⟩⟩
      rcases hun with hlength | ⟨L, hL, hun⟩
      · exact absurd (initOn_of_readCarriers hxs) hlength
      · rwa [← spells_unique hL hspells]
    rw [hL]
    rcases hpayload with ⟨hfit, h⟩ | ⟨-, ys, hys, h⟩ | ⟨hfit, hun, h⟩
    · exact iff_of_false (by simp [h]) fun ⟨_, _, hfit', _⟩ => absurd hfit' (by omega)
    · exact iff_of_false (by simp [h]) fun ⟨_, _, _, hun⟩ => hun (initOn_of_readCarriers hys)
    · exact iff_of_true h ⟨hcap, h32, hfit, hun⟩

/-- Settles O26: one equivalence per command. -/
theorem uninitialisedBytesFault : Obligations.UninitialisedBytesFault := fun s =>
  ⟨execLsbWrite_fault_iff s, execLsbReadInt_fault_iff s, execLsbReadBytes_fault_iff s, execFrameEncode_fault_iff s,
    execFrameDecode_fault_iff s⟩

end Sys2Proof.Machine
end

section
/-! PROOFS. Commands on two states whose memories agree on a window end alike: what the memories hold elsewhere is neither
read nor written (O34, O35). -/

namespace Sys2Proof.Machine

/-- A relation of two memories under which the window [lo, hi) holds the same bytes in both, and which the same write inside
the window to both keeps. -/
structure AgreesOn (P : Memory → Memory → Prop) (lo hi : Nat) : Prop where
  read : ∀ {m m' : Memory}, P m m' → ∀ {a : Nat}, lo ≤ a → a < hi → Memory.read m' a = Memory.read m a
  write : ∀ {m m' : Memory}, P m m' → ∀ {a : Nat}, lo ≤ a → a < hi → ∀ v, P (Memory.write m a v) (Memory.write m' a v)

namespace AgreesOn

variable {P : Memory → Memory → Prop} {lo hi : Nat}

theorem mono (h : AgreesOn P lo hi) {lo' hi' : Nat} (hlo : lo ≤ lo') (hhi : hi' ≤ hi) : AgreesOn P lo' hi' where
  read hm _ h1 h2 := h.read hm (by omega) (by omega)
  write hm _ h1 h2 := h.write hm (by omega) (by omega)

theorem of_eq (lo hi : Nat) : AgreesOn Eq lo hi where
  read hm _ _ _ := by rw [hm]
  write hm _ _ _ v := by rw [hm]

/-- sameWithin is such a relation on its own window, whatever the two memories began with. -/
theorem of_sameWithin (lo hi : Nat) (p q : Memory) : AgreesOn (sameWithin lo hi p q) lo hi where
  read hm a h1 h2 := by simpa [h1, h2] using hm a
  write hm a h1 h2 v c := by
    have hc := hm c
    by_cases heq : a = c
    · subst heq
      simp [h1, h2]
    · simpa [Memory.read_write_other _ v heq] using hc

variable {m m' : Memory}

theorem readCarriers_eq {p n : Nat} (h : AgreesOn P p (p + n)) (hm : P m m') :
    readCarriers m' p n = readCarriers m p n :=
  readCarriers_congr fun _ hi => h.read hm (by omega) (by omega)

theorem gatherBytes_eq {j n : Nat} (h : AgreesOn P j (j + n)) (hm : P m m') :
    gatherBytes (Memory.read m') j n = gatherBytes (Memory.read m) j n := by
  induction n generalizing j with
  | zero => rfl
  | succ n ih =>
    have hrest := ih (j := j + 1) (h.mono (by omega) (by omega))
    simp only [gatherBytes, h.read hm (Nat.le_refl j) (by omega), hrest]

/-- The same carrier stream write to both memories succeeds in both or in neither, and keeps the relation. -/
theorem writeCarriers {p : Nat} {xs : List Bool} (h : AgreesOn P p (p + xs.length)) (hm : P m m') :
    Option.Rel P (writeCarriers m p xs) (writeCarriers m' p xs) := by
  induction xs generalizing m m' p with
  | nil => exact .some hm
  | cons x xs ih =>
    rw [List.length_cons] at h
    simp only [Machine.writeCarriers, writeCarrier, h.read hm (Nat.le_refl p) (by omega)]
    cases Memory.read m p with
    | none => exact .none
    | some b => exact ih (h.mono (by omega) (by omega)) (h.write hm (Nat.le_refl p) (by omega) _)

theorem writeSeq {a : Nat} {bs : List Byte} (h : AgreesOn P a (a + bs.length)) (hm : P m m') :
    P (Memory.writeSeq m a bs) (Memory.writeSeq m' a bs) := by
  induction bs generalizing m m' a with
  | nil => exact hm
  | cons b bs ih =>
    rw [List.length_cons] at h
    exact ih (h.mono (by omega) (by omega)) (h.write hm (Nat.le_refl a) (by omega) b)

end AgreesOn

/-- Two states that differ in their memories only, PIX related by P and DAT by Q. -/
def Alike (P Q : Memory → Memory → Prop) (t u : State) : Prop :=
  ∃ m d, u = { t with pix := m, dat := d } ∧ P t.pix m ∧ Q t.dat d

/-- Two commands' pseudocode ends alike: the same way, with the same code or fault, in states alike. -/
def CmdResult.alike (P Q : Memory → Memory → Prop) : CmdResult → CmdResult → Prop
  | .done t, .done u => Alike P Q t u
  | .raised e t, .raised e' u => e' = e ∧ Alike P Q t u
  | .faulted f, .faulted g => g = f
  | _, _ => False

section
variable {P Q : Memory → Memory → Prop} {s u : State}

theorem Alike.setPix (h : Alike P Q s u) {m m' : Memory} (hm : P m m') : Alike P Q (s.setPix m) (u.setPix m') := by
  obtain ⟨_, d, rfl, -, hd⟩ := h
  exact ⟨m', d, rfl, hm, hd⟩

theorem Alike.setDat (h : Alike P Q s u) {d d' : Memory} (hd : Q d d') : Alike P Q (s.setDat d) (u.setDat d') := by
  obtain ⟨m, _, rfl, hm, -⟩ := h
  exact ⟨m, d', rfl, hm, hd⟩

theorem Alike.setResult (h : Alike P Q s u) (v : Word) : Alike P Q (s.setResult v) (u.setResult v) := by
  obtain ⟨m, d, rfl, hm, hd⟩ := h
  exact ⟨m, d, rfl, hm, hd⟩

theorem Alike.setLenBytes (h : Alike P Q s u) (v : Word) : Alike P Q (s.setLenBytes v) (u.setLenBytes v) := by
  obtain ⟨m, d, rfl, hm, hd⟩ := h
  exact ⟨m, d, rfl, hm, hd⟩

theorem Alike.nextDraw (h : Alike P Q s u) : Alike P Q s.nextDraw u.nextDraw := by
  obtain ⟨m, d, rfl, hm, hd⟩ := h
  exact ⟨m, d, rfl, hm, hd⟩

theorem Alike.complete (h : Alike P Q s u) (e : ErrCode) : Alike P Q (s.complete e) (u.complete e) := by
  obtain ⟨m, d, rfl, hm, hd⟩ := h
  exact ⟨m, d, rfl, hm, hd⟩

/-- The three ways in which two commands' pseudocode ends alike. -/
theorem CmdResult.alike_cases {r r' : CmdResult} (h : r.alike P Q r') :
    (∃ t u, r = .done t ∧ r' = .done u ∧ Alike P Q t u) ∨
    (∃ e t u, r = .raised e t ∧ r' = .raised e u ∧ Alike P Q t u) ∨
    (∃ f, r = .faulted f ∧ r' = .faulted f) := by
  unfold CmdResult.alike at h
  split at h
  · next t u => exact .inl ⟨t, u, rfl, rfl, h⟩
  · next e t e' u => exact .inr (.inl ⟨e, t, u, rfl, by rw [h.1], h.2⟩)
  · next f g => exact .inr (.inr ⟨f, rfl, by rw [h]⟩)
  · exact h.elim

theorem CmdResult.alike_andThen {r r' : CmdResult} {k k' : State → CmdResult} (h : r.alike P Q r')
    (hk : ∀ t u, r = .done t → Alike P Q t u → (k t).alike P Q (k' u)) :
    (r.andThen k).alike P Q (r'.andThen k') := by
  rcases CmdResult.alike_cases h with ⟨t, u, rfl, rfl, htu⟩ | ⟨e, t, u, rfl, rfl, htu⟩ | ⟨f, rfl, rfl⟩
  · exact hk t u rfl htu
  · exact ⟨rfl, htu⟩
  · rfl

theorem finishCommand_alike {r r' : CmdResult} (h : r.alike P Q r') :
    endAlike (Alike P Q) (finishCommand r) (finishCommand r') := by
  rcases CmdResult.alike_cases h with ⟨t, u, rfl, rfl, htu⟩ | ⟨e, t, u, rfl, rfl, htu⟩ | ⟨f, rfl, rfl⟩
  · exact htu.complete .ok
  · exact htu.complete e
  · rfl

/-- The two ways in which two runs end alike. -/
theorem endAlike_cases {R : State → State → Prop} {o o' : Host.Outcome State Fault Refusal} (h : endAlike R o o') :
    (∃ t u, o = .next t ∧ o' = .next u ∧ R t u) ∨ (∃ f, o = .fault f ∧ o' = .fault f) := by
  unfold endAlike at h
  split at h
  · next t u => exact .inl ⟨t, u, rfl, rfl, h⟩
  · next f g => exact .inr ⟨f, rfl, by rw [h]⟩
  · exact h.elim

/-! The shared procedures: the checks read no memory, so both states take the same branch; after them the windows agree. -/

theorem checkConfig_alike (h : Alike P Q s u) {k k' : State → CmdResult}
    (hk : s.bufLen.toNat ≤ s.pixcap.toNat → (k s).alike P Q (k' u)) :
    (checkConfig s k).alike P Q (checkConfig u k') := by
  have hcaps : u.pixcap = s.pixcap ∧ u.bufLen = s.bufLen := by obtain ⟨m, d, rfl, -⟩ := h; exact ⟨rfl, rfl⟩
  unfold checkConfig
  rw [hcaps.1, hcaps.2]
  split
  · exact ⟨rfl, h⟩
  · next hcap => exact hk (by omega)

theorem lsbWrite_alike (h : Alike P Q s u) {off n : Nat} {src src' : Nat → Option Byte}
    (hsrc : off + 8 * n ≤ s.bufLen.toNat → gatherBytes src' 0 n = gatherBytes src 0 n)
    (hpix : off + 8 * n ≤ s.bufLen.toNat → AgreesOn P off (off + 8 * n)) :
    (lsbWrite s off n src).alike P Q (lsbWrite u off n src') := by
  have hu := h
  obtain ⟨m, d, rfl, hm, -⟩ := hu
  unfold lsbWrite
  split
  · exact ⟨rfl, h⟩
  · next hfit =>
    have hfit : off + 8 * n ≤ s.bufLen.toNat := by simpa using hfit
    rw [hsrc hfit]
    cases hg : gatherBytes src 0 n with
    | none => rfl
    | some bs =>
      have hwindow : AgreesOn P off (off + (bitStream bs).length) := by
        rw [bitStream_length, (gatherBytes_some hg).1]
        exact hpix hfit
      have hwrite := hwindow.writeCarriers hm
      dsimp only
      generalize writeCarriers s.pix off (bitStream bs) = o, writeCarriers m off (bitStream bs) = o' at hwrite ⊢
      cases hwrite with
      | none => rfl
      | some hm' => exact h.setPix hm'

theorem lsbReadBits_alike (h : Alike P Q s u) {off count : Nat} {k k' : List Bool → CmdResult}
    (hpix : off + count ≤ s.bufLen.toNat → AgreesOn P off (off + count))
    (hk : ∀ xs, off + count ≤ s.bufLen.toNat → readCarriers s.pix off count = some xs → (k xs).alike P Q (k' xs)) :
    (lsbReadBits s off count k).alike P Q (lsbReadBits u off count k') := by
  have hu := h
  obtain ⟨m, d, rfl, hm, -⟩ := hu
  unfold lsbReadBits
  split
  · exact ⟨rfl, h⟩
  · next hfit =>
    have hfit : off + count ≤ s.bufLen.toNat := by simpa using hfit
    rw [(hpix hfit).readCarriers_eq hm]
    cases hr : readCarriers s.pix off count with
    | none => rfl
    | some xs => exact hk xs hfit hr

theorem writeLenPrefix_alike (h : Alike P Q s u) (v : Word) (hpix : 32 ≤ s.bufLen.toNat → AgreesOn P 0 32) :
    (writeLenPrefix s v).alike P Q (writeLenPrefix u v) :=
  lsbWrite_alike h (fun _ => rfl) hpix

theorem drawLenPrefix_alike (h : Alike P Q s u) (hpix : AgreesOn P 0 32) :
    (drawLenPrefix s).alike P Q (drawLenPrefix u) := by
  have hdraws : u.draws = s.draws := by obtain ⟨m, d, rfl, -⟩ := h; rfl
  unfold drawLenPrefix
  rw [hdraws]
  exact writeLenPrefix_alike h.nextDraw _ fun _ => hpix

theorem framePayload_alike (h : Alike P Q s u) (hlength : AgreesOn P 0 32)
    (hpix : 32 + 8 * s.dataLen.toNat ≤ s.bufLen.toNat → AgreesOn P 32 (32 + 8 * s.dataLen.toNat))
    (hdat : 32 + 8 * s.dataLen.toNat ≤ s.bufLen.toNat → AgreesOn Q 0 s.dataLen.toNat) :
    (framePayload s).alike P Q (framePayload u) := by
  have hpayload : (lsbWrite s 32 s.dataLen.toNat (Memory.read s.dat)).alike P Q
      (lsbWrite u 32 u.dataLen.toNat (Memory.read u.dat)) := by
    have hu := h
    obtain ⟨m, d, rfl, -, hd⟩ := hu
    exact lsbWrite_alike h (fun hfit => (AgreesOn.mono (hdat hfit) (by omega) (by omega)).gatherBytes_eq hd) hpix
  unfold framePayload
  rcases CmdResult.alike_cases hpayload with ⟨t, t', e, e', htt'⟩ | ⟨c, t, t', e, e', htt'⟩ | ⟨f, e, e'⟩ <;> rw [e, e']
  · exact htt'
  · exact CmdResult.alike_andThen (drawLenPrefix_alike htt' hlength) fun _ _ _ hww' => ⟨rfl, hww'⟩
  · rfl

/-- After the length is written the check before it has passed, and PIX alone has changed. -/
theorem writeLenPrefix_done {s t : State} {v : Word} (h : writeLenPrefix s v = .done t) :
    32 ≤ s.bufLen.toNat ∧ ∃ m, t = s.setPix m := by
  rcases writeLenPrefix_cases s v with ⟨-, e⟩ | ⟨h32, m, -, e⟩ | ⟨-, -, e⟩ <;> rw [e] at h <;> cases h
  exact ⟨h32, m, rfl⟩

theorem execLenToBytes_error {s : State} {e : ErrCode} (h : toBytes32 (lenOperand s) = .error e) :
    execLenToBytes s = .next (s.complete e) := by
  simp [execLenToBytes, h]

theorem execLenToBytes_ok {s : State} {bs : List Byte} (h : toBytes32 (lenOperand s) = .ok bs) :
    execLenToBytes s = .next ((s.setLenBytes (packLenBytes bs)).complete .ok) := by
  simp [execLenToBytes, h]

/-- A command ends alike on two states alike, when PIX agrees below BUF_LEN and DAT agrees on every byte that fits in
PIX_CAP carriers. -/
theorem exec_alike (i : Instr) (h : Alike P Q s u) (hpix : AgreesOn P 0 s.bufLen.toNat)
    (hdat : AgreesOn Q 0 (s.pixcap.toNat / 8)) : endAlike (Alike P Q) (exec i s) (exec i u) := by
  have hu := h
  obtain ⟨m, d, rfl, hm, hd⟩ := hu
  cases i with
  | lenToBytes =>
    rw [exec_lenToBytes, exec_lenToBytes]
    cases hbytes : toBytes32 (lenOperand s) with
    | error e =>
      rw [execLenToBytes_error hbytes, execLenToBytes_error (s := { s with pix := m, dat := d }) hbytes]
      exact h.complete e
    | ok bs =>
      rw [execLenToBytes_ok hbytes, execLenToBytes_ok (s := { s with pix := m, dat := d }) hbytes]
      exact (h.setLenBytes _).complete .ok
  | lenFromBytes =>
    rw [exec_lenFromBytes, exec_lenFromBytes, execLenFromBytes_next, execLenFromBytes_next]
    exact (h.setResult _).complete .ok
  | lsbWrite =>
    refine finishCommand_alike (checkConfig_alike h fun hcap => lsbWrite_alike h (fun hfit => ?_) fun hfit => ?_)
    · exact (hdat.mono (by omega) (by omega)).gatherBytes_eq hd
    · exact hpix.mono (by omega) hfit
  | lsbReadInt =>
    exact finishCommand_alike (checkConfig_alike h fun _ =>
      lsbReadBits_alike h (fun hfit => hpix.mono (by omega) hfit) fun xs _ _ => h.setResult _)
  | lsbReadBytes =>
    refine finishCommand_alike (checkConfig_alike h fun hcap =>
      lsbReadBits_alike h (fun hfit => hpix.mono (by omega) hfit) fun xs hfit hxs => ?_)
    have hlen := (bitStream_packBytes _ xs (readCarriers_some hxs).1).1
    have hfit : s.bitOffset.toNat + 8 * s.dataLen.toNat ≤ s.bufLen.toNat := hfit
    exact h.setDat ((hdat.mono (by omega) (by omega)).writeSeq hd)
  | frameEncode =>
    refine finishCommand_alike (checkConfig_alike h fun hcap => CmdResult.alike_andThen
      (writeLenPrefix_alike h _ fun h32 => hpix.mono (by omega) h32) fun t u hdone htu => ?_)
    obtain ⟨h32, m', rfl⟩ := writeLenPrefix_done hdone
    exact framePayload_alike htu (hpix.mono (by omega) h32) (fun hfit => hpix.mono (by omega) hfit) fun hfit =>
      hdat.mono (by omega) (by simp only [setPix_dataLen, setPix_bufLen] at hfit ⊢; omega)
  | frameDecode =>
    refine finishCommand_alike (checkConfig_alike h fun hcap =>
      lsbReadBits_alike h (fun hfit => hpix.mono (by omega) hfit) fun xs _ _ =>
        lsbReadBits_alike h (fun hfit => hpix.mono (by omega) hfit) fun ys hfit hys => ?_)
    have hlen := (bitStream_packBytes _ ys (readCarriers_some hys).1).1
    exact (h.setDat ((hdat.mono (by omega) (by omega)).writeSeq hd)).setResult _

end

/-- Settles O34: PIX agrees below BUF_LEN by sameWithin, and DAT is the same. -/
theorem pixBeyondBufLenIsIsolated : Obligations.PixBeyondBufLenIsIsolated := by
  intro i s m hagree
  have hstart : sameWithin 0 s.bufLen.toNat s.pix m s.pix m := fun a => by
    split
    · next ha => exact hagree a ha.2
    · exact ⟨rfl, rfl⟩
  have halike : Alike (sameWithin 0 s.bufLen.toNat s.pix m) Eq s { s with pix := m } := ⟨m, s.dat, rfl, hstart, rfl⟩
  rcases endAlike_cases (exec_alike i halike (AgreesOn.of_sameWithin _ _ _ _) (AgreesOn.of_eq _ _)) with
    ⟨t, u, ht, hu, m', _, rfl, hm', rfl⟩ | ⟨f, hf, hf'⟩
  · rw [ht, hu]
    exact ⟨rfl, fun a ha => by simpa [ha] using hm' a, fun a ha => by simpa [Nat.not_lt.2 ha] using hm' a⟩
  · rw [hf, hf']

/-- Settles O35: DAT agrees below DAT_CAP by sameWithin, which is every byte that fits in PIX_CAP carriers (00 R5), and PIX
is the same. -/
theorem datBeyondCapacityIsIsolated : Obligations.DatBeyondCapacityIsIsolated := by
  intro i s m hcaps hagree
  have hstart : sameWithin 0 s.datcap.toNat s.dat m s.dat m := fun a => by
    split
    · next ha => exact hagree a ha.2
    · exact ⟨rfl, rfl⟩
  have halike : Alike Eq (sameWithin 0 s.datcap.toNat s.dat m) s { s with dat := m } := ⟨s.pix, m, rfl, rfl, hstart⟩
  have hdat : AgreesOn (sameWithin 0 s.datcap.toNat s.dat m) 0 (s.pixcap.toNat / 8) :=
    (AgreesOn.of_sameWithin _ _ _ _).mono (Nat.le_refl 0) hcaps
  rcases endAlike_cases (exec_alike i halike (AgreesOn.of_eq _ _) hdat) with
    ⟨t, u, ht, hu, _, d', rfl, rfl, hd'⟩ | ⟨f, hf, hf'⟩
  · rw [ht, hu]
    exact ⟨rfl, fun a ha => by simpa [ha] using hd' a, fun a ha => by simpa [Nat.not_lt.2 ha] using hd' a⟩
  · rw [hf, hf']

end Sys2Proof.Machine
end

section
/-! PROOFS. The decoder against the opcode map: which words are legal, and that decoding and encoding undo each other (O1 to
O3). -/

namespace Sys2Proof.Machine

/-- What Laws/PerInstr.lean says of each command's word, for every command. -/
theorem commandWord (i : Instr) : Laws.CommandWord.Statement i := by
  cases i with
  | lenToBytes => exact Laws.CommandWord.lenToBytes
  | lenFromBytes => exact Laws.CommandWord.lenFromBytes
  | lsbWrite => exact Laws.CommandWord.lsbWrite
  | lsbReadInt => exact Laws.CommandWord.lsbReadInt
  | lsbReadBytes => exact Laws.CommandWord.lsbReadBytes
  | frameEncode => exact Laws.CommandWord.frameEncode
  | frameDecode => exact Laws.CommandWord.frameDecode

/-- A command word is RSV : OP (30 R90). -/
theorem rsvField_append_opField (w : Word) : rsvField w ++ opField w = w :=
  (BitVec.extractLsb'_append_extractLsb'_eq_extractLsb' rfl).trans BitVec.extractLsb'_eq_self

/-- The word of a command is the one with RSV = 0 and the command's OP (30 R90, R91). -/
theorem eq_encode_iff (w : Word) (i : Instr) : w = encode i ↔ rsvField w = 0#28 ∧ opCode i = opField w := by
  obtain ⟨-, hrsv, hop, -, -⟩ := commandWord i
  constructor
  · rintro rfl
    exact ⟨hrsv, hop.symm⟩
  · rintro ⟨hw, hi⟩
    rw [← rsvField_append_opField w, hw, ← hi, encode]

/-- The opcode map gives a command for its own OP only (30 R91). -/
theorem decodeOp_eq_instr_iff (op : BitVec 4) (i : Instr) : decodeOp op.toNat = .instr i ↔ opCode i = op := by
  revert op
  cases i <;> decide

/-- The OPs of the opcode map are 1 to 7 (30 R91). -/
theorem exists_opCode_iff (op : BitVec 4) : (∃ i, opCode i = op) ↔ 1 ≤ op.toNat ∧ op.toNat ≤ 7 := by
  constructor
  · rintro ⟨i, rfl⟩
    obtain ⟨-, -, -, hlow, hhigh⟩ := commandWord i
    exact ⟨hlow, hhigh⟩
  · rintro ⟨hlow, hhigh⟩
    have hop : ∀ op : BitVec 4, 1 ≤ op.toNat → op.toNat ≤ 7 → (decodeOp op.toNat).instr?.isSome = true := by decide
    cases hd : decodeOp op.toNat with
    | instr i => exact ⟨i, (decodeOp_eq_instr_iff op i).1 hd⟩
    | illegal why => simpa [hd, Decoded.instr?] using hop op hlow hhigh

/-- A word decodes to the command whose OP it has, if RSV = 0 (30 R92). -/
theorem decode_eq_instr_iff (w : Word) (i : Instr) :
    decode w = .instr i ↔ rsvField w = 0#28 ∧ opCode i = opField w := by
  unfold decode
  split
  · next hrsv => simp [hrsv, decodeOp_eq_instr_iff]
  · next hrsv => simp [hrsv]

/-- A word that decodes to no command completes with ILLEGAL_CMD (30 R92, 60 R195). -/
theorem coreStep_of_illegal {s : State} (h : ∀ i, decode s.cmd ≠ .instr i) :
    coreStep s = .next (s.complete .illegalCmd) := by
  rcases coreStep_cases s with ⟨i, hi, -⟩ | ⟨_, -, hstep⟩
  · exact absurd hi (h i)
  · exact hstep

/-- The table's number of a 32-bit word stands for that word (30 R94). -/
@[simp] theorem tableWord_toNat (w : Word) : tableWord 32 w.toNat = w := by
  rw [tableWord, Nat.mod_eq_of_lt w.isLt, BitVec.ofNat_toNat, BitVec.setWidth_eq]

theorem decodeTableWord_toNat (w : Word) : decodeTableWord 32 w.toNat = (decode w).instr? := by
  rw [decodeTableWord, tableWord_toNat, if_pos (Nat.mod_lt _ (by decide))]

/-- Settles O1: decoding and the encoder's word are told by the same two fields. -/
theorem decodingFollowsTheOpcodeMap : Obligations.DecodingFollowsTheOpcodeMap := by
  intro w
  refine ⟨?_, fun i hi => ((decode_eq_instr_iff w i).1 hi).2,
    fun i => (decode_eq_instr_iff w i).trans (eq_encode_iff w i).symm, ?_⟩
  · simp only [decode_eq_instr_iff, exists_and_left, exists_opCode_iff]
    rfl
  · rintro s rfl hillegal
    exact coreStep_of_illegal hillegal

/-- Settles O2: each word of the opcode map is the word of its command. -/
theorem opcodeMapWordsDecode : Obligations.OpcodeMapWordsDecode :=
  ⟨decode_encode .lenToBytes, decode_encode .lenFromBytes, decode_encode .lsbWrite, decode_encode .lsbReadInt,
    decode_encode .lsbReadBytes, decode_encode .frameEncode, decode_encode .frameDecode⟩

/-- Settles O3: the table's numbering is the word's own. -/
theorem decodeOfEncodeIsTheCommand : Obligations.DecodeOfEncodeIsTheCommand := by
  intro i _
  refine ⟨decode_encode i, ?_⟩
  rw [decodeTableWord_toNat, decode_encode]
  rfl

end Sys2Proof.Machine
end

section
/-! PROOFS. Whose turn it is and what the turn does: the core agent's step, the command it runs, and the host's WAIT (O4, O6,
O56). -/

namespace Sys2Proof.Machine

/-- The core agent's step is enabled exactly while BUSY = 1 (30 R99). -/
theorem takeTurn_core_busy {s : State} (hbusy : s.status.busy = true) : takeTurn s .core = coreStep s :=
  if_pos hbusy

theorem takeTurn_core_idle {s : State} (hidle : s.status.busy = false) : takeTurn s .core = .next s := by
  simp [takeTurn, hidle]

/-- With a valid configuration and BUSY = 1, the step is the core agent's when its turn is named, and when no turn is
(log 3). -/
theorem step_of_coreTurn {s : State} (hcaps : Config.capsValid s.pixcap s.datcap = true) (hbusy : s.status.busy = true)
    (hturn : s.sched = [] ∨ s.sched.head? = some .core) : step s = coreStep { s with sched := s.sched.tail } := by
  rcases hturn with hsched | hhead
  · have hsame : { s with sched := s.sched.tail } = s := by cases s; simp_all
    rw [hsame, step_of_pending hcaps hsched hbusy]
  · obtain ⟨rest, hsched⟩ := List.head?_eq_some_iff.1 hhead
    simp [step_of_capsValid hcaps, nextTurn, hsched, takeTurn, hbusy]

/-- A step runs the decoded command (30 R99). -/
theorem step_of_decode {s : State} {i : Instr} (hcaps : Config.capsValid s.pixcap s.datcap = true)
    (hbusy : s.status.busy = true) (hturn : s.sched = [] ∨ s.sched.head? = some .core) (hdecode : decode s.cmd = .instr i) :
    step s = exec i { s with sched := s.sched.tail } :=
  (step_of_coreTurn hcaps hbusy hturn).trans (coreStep_of_decode hdecode)

/-- The bit that WAIT tests in the STATUS word is BUSY (10 R28, 30 R97). -/
theorem waitBit_statusWord (st : Status) : waitBit (.word (statusWord st)) = st.busy := by
  obtain ⟨hbusy, -⟩ := statusWord_fields st
  exact hbusy

/-- A WAIT's turn reads STATUS, and the statement is gone if BUSY = 0 (30 R97). -/
theorem hostStep_wait {s : State} {rest : List HostStmt} (hprog : s.prog = .wait :: rest) :
    hostStep s = if s.status.busy then .next s else .next { s with prog := rest } := by
  have hread : hostRead s .csr (csrOffset .status) 4 = .ok (.word (statusWord s.status)) := by
    rw [hostRead_csr s (by decide) (by decide), csrRead_csrOffset]
    rfl
  simp [hostStep, hprog, hread, waitBit_statusWord]

/-- Settles O6: the turn by BUSY, and the step by the decoded command's outcome or the illegal word's completion. -/
theorem coreStepCompletesOrMeetsUninitRead : Obligations.CoreStepCompletesOrMeetsUninitRead := by
  refine ⟨fun s => takeTurn_core_idle, fun s => takeTurn_core_busy, fun s => ?_⟩
  rcases coreStep_cases s with ⟨i, -, hstep⟩ | ⟨_, -, hstep⟩ <;> rw [hstep]
  · exact exec_outcome i s
  · exact .inl ⟨_, rfl, rfl, rfl, rfl⟩

/-- Settles O4: the step is the core agent's, and a placed word is one whose turn is named. -/
theorem stepRunsTheDecodedCommand : Obligations.StepRunsTheDecodedCommand := by
  refine ⟨fun s i => step_of_decode, fun s i hcaps => ?_⟩
  rw [State.withFetchWord, tableWord_toNat]
  exact step_of_decode (s := placeCommand s (encode i)) hcaps rfl (.inr rfl) (decode_encode i)

/-- Settles O56: WAIT tests BUSY. -/
theorem waitPollsUntilIdle : Obligations.WaitPollsUntilIdle := by
  intro s rest hprog
  rw [hostStep_wait hprog]
  exact ⟨fun hbusy => if_pos hbusy, fun hidle => if_neg (by simp [hidle])⟩

end Sys2Proof.Machine
end

section
/-! PROOFS. What a command does not read does not matter to it. Two runs of a command are compared stage by stage, by a
relation of the states they reach (Ends, which is CmdResult.alike with any relation in place of Alike). For the registers it
relates a state to the one with the registers replaced (O12). -/

namespace Sys2Proof.Machine

/-- Two commands' pseudocode ends the same way, with the same code or fault, in states that R relates for that code. -/
def CmdResult.Ends (R : ErrCode → State → State → Prop) : CmdResult → CmdResult → Prop
  | .done t, .done u => R .ok t u
  | .raised e t, .raised e' u => e' = e ∧ R e t u
  | .faulted f, .faulted g => g = f
  | _, _ => False

section
variable {R : ErrCode → State → State → Prop} {s u : State}

/-- The three ways in which two commands' pseudocode ends the same way. -/
theorem CmdResult.ends_cases {r r' : CmdResult} (h : r.Ends R r') :
    (∃ t u, r = .done t ∧ r' = .done u ∧ R .ok t u) ∨
    (∃ e t u, r = .raised e t ∧ r' = .raised e u ∧ R e t u) ∨
    (∃ f, r = .faulted f ∧ r' = .faulted f) := by
  unfold CmdResult.Ends at h
  split at h
  · next t u => exact .inl ⟨t, u, rfl, rfl, h⟩
  · next e t e' u => exact .inr (.inl ⟨e, t, u, rfl, by rw [h.1], h.2⟩)
  · next f g => exact .inr (.inr ⟨f, rfl, by rw [h]⟩)
  · exact h.elim

theorem CmdResult.Ends.andThen {r r' : CmdResult} {k k' : State → CmdResult} (h : r.Ends R r')
    (hk : ∀ t u, R .ok t u → (k t).Ends R (k' u)) : (r.andThen k).Ends R (r'.andThen k') := by
  rcases CmdResult.ends_cases h with ⟨t, u, rfl, rfl, htu⟩ | ⟨e, t, u, rfl, rfl, htu⟩ | ⟨f, rfl, rfl⟩
  · exact hk t u htu
  · exact ⟨rfl, htu⟩
  · rfl

/-- The completions of two commands that end the same way. -/
theorem finishCommand_endAlike {S : State → State → Prop} {r r' : CmdResult} (h : r.Ends R r')
    (hcomplete : ∀ e t u, R e t u → S (t.complete e) (u.complete e)) :
    endAlike S (finishCommand r) (finishCommand r') := by
  rcases CmdResult.ends_cases h with ⟨t, u, rfl, rfl, htu⟩ | ⟨e, t, u, rfl, rfl, htu⟩ | ⟨f, rfl, rfl⟩
  · exact hcomplete .ok t u htu
  · exact hcomplete e t u htu
  · rfl

/-- The check before a command reads PIXCAP and BUF_LEN alone (30 R99). -/
theorem checkConfig_ends (hpixcap : u.pixcap = s.pixcap) (hbufLen : u.bufLen = s.bufLen) (hbad : R .badConfig s u)
    {k k' : State → CmdResult} (hk : (k s).Ends R (k' u)) : (checkConfig s k).Ends R (checkConfig u k') := by
  unfold checkConfig
  rw [hpixcap, hbufLen]
  split
  · exact ⟨rfl, hbad⟩
  · exact hk

/-- LsbReadBits reads BUF_LEN and the carriers of its window (42 R150). -/
theorem lsbReadBits_ends {off count : Nat} {k k' : List Bool → CmdResult} (hbufLen : u.bufLen = s.bufLen)
    (hread : readCarriers u.pix off count = readCarriers s.pix off count) (hout : R .outOfBounds s u)
    (hk : ∀ xs, readCarriers s.pix off count = some xs → (k xs).Ends R (k' xs)) :
    (lsbReadBits s off count k).Ends R (lsbReadBits u off count k') := by
  unfold lsbReadBits
  rw [hbufLen, hread]
  split
  · exact ⟨rfl, hout⟩
  · cases hxs : readCarriers s.pix off count with
    | none => rfl
    | some xs => exact hk xs hxs

/-- LsbWrite reads BUF_LEN, its byte source and PIX (41 R130). -/
theorem lsbWrite_ends {off n : Nat} {src : Nat → Option Byte} (hbufLen : u.bufLen = s.bufLen) (hpix : u.pix = s.pix)
    (hout : R .capacity s u) (hdone : ∀ m, R .ok (s.setPix m) (u.setPix m)) :
    (lsbWrite s off n src).Ends R (lsbWrite u off n src) := by
  unfold lsbWrite
  rw [hbufLen, hpix]
  split
  · exact ⟨rfl, hout⟩
  · cases gatherBytes src 0 n with
    | none => rfl
    | some bs =>
      dsimp only
      cases writeCarriers s.pix off (bitStream bs) with
      | none => rfl
      | some m => exact hdone m

end

/-- u is t with f done to it, whatever the code. -/
def Applied (f : State → State) (_ : ErrCode) (t u : State) : Prop := u = f t

/-- f before a completion is g after it. -/
def CompletesTo (f g : State → State) : Prop := ∀ t e, (f t).complete e = g (t.complete e)

theorem finishCommand_applied {f g : State → State} (hcomplete : CompletesTo f g) {r r' : CmdResult}
    (h : r.Ends (Applied f) r') : finishCommand r' = mapNext g (finishCommand r) := by
  rcases CmdResult.ends_cases h with ⟨t, u, rfl, rfl, rfl⟩ | ⟨e, t, u, rfl, rfl, rfl⟩ | ⟨e, rfl, rfl⟩
  · exact congrArg Host.Outcome.next (hcomplete t .ok)
  · exact congrArg Host.Outcome.next (hcomplete t e)
  · rfl

section
variable {f g : State → State} {s : State}

/-! The two length commands access no memory, so f may change that too. -/

theorem exec_lenToBytes_applied (hcomplete : CompletesTo f g) (hhigh : (f s).lenInHi = s.lenInHi)
    (hlow : (f s).lenInLo = s.lenInLo) (hset : ∀ v, (f s).setLenBytes v = f (s.setLenBytes v)) :
    exec .lenToBytes (f s) = mapNext g (exec .lenToBytes s) := by
  refine finishCommand_applied hcomplete ?_
  rw [show lenOperand (f s) = lenOperand s by simp [lenOperand, hhigh, hlow]]
  cases toBytes32 (lenOperand s) with
  | error e => exact ⟨rfl, rfl⟩
  | ok bs => exact hset _

theorem exec_lenFromBytes_applied (hcomplete : CompletesTo f g) (hbytes : (f s).lenBytes = s.lenBytes)
    (hset : ∀ v, (f s).setResult v = f (s.setResult v)) :
    exec .lenFromBytes (f s) = mapNext g (exec .lenFromBytes s) := by
  have hvalue : lenBytesValue (f s) = lenBytesValue s := by simp [lenBytesValue, hbytes]
  rw [exec_lenFromBytes, exec_lenFromBytes, execLenFromBytes_next, execLenFromBytes_next, hvalue, hset, hcomplete]
  rfl

/-- LSB_READ_INT reads of PIX its window alone, so f may change PIX elsewhere (42 R151). -/
theorem exec_lsbReadInt_applied (hcomplete : CompletesTo f g) (hpixcap : (f s).pixcap = s.pixcap)
    (hbufLen : (f s).bufLen = s.bufLen) (hoffset : (f s).bitOffset = s.bitOffset)
    (hread : readCarriers (f s).pix s.bitOffset.toNat 32 = readCarriers s.pix s.bitOffset.toNat 32)
    (hset : ∀ v, (f s).setResult v = f (s.setResult v)) : exec .lsbReadInt (f s) = mapNext g (exec .lsbReadInt s) := by
  refine finishCommand_applied hcomplete (checkConfig_ends hpixcap hbufLen rfl ?_)
  rw [hoffset]
  exact lsbReadBits_ends hbufLen hread rfl fun xs _ => hset _

end

/-- f keeps what every command on PIX reads besides its own operands, and does not meddle with what those commands write
besides RESULT; done before a completion it is g after it. For a replacement of registers each part holds by rfl. -/
structure KeepsPixCommands (f g : State → State) : Prop where
  pixcap    : ∀ t, (f t).pixcap = t.pixcap := by intros; rfl
  bufLen    : ∀ t, (f t).bufLen = t.bufLen := by intros; rfl
  pix       : ∀ t, (f t).pix = t.pix := by intros; rfl
  dat       : ∀ t, (f t).dat = t.dat := by intros; rfl
  draws     : ∀ t, (f t).draws = t.draws := by intros; rfl
  setPix    : ∀ t m, (f t).setPix m = f (t.setPix m) := by intros; rfl
  setDat    : ∀ t m, (f t).setDat m = f (t.setDat m) := by intros; rfl
  nextDraw  : ∀ t, (f t).nextDraw = f t.nextDraw := by intros; rfl
  completes : CompletesTo f g := by intro _ _; rfl

namespace KeepsPixCommands
variable {f g : State → State} (h : KeepsPixCommands f g) {s : State}
include h

theorem lsbWrite (s : State) (off n : Nat) (src : Nat → Option Byte) :
    (lsbWrite s off n src).Ends (Applied f) (lsbWrite (f s) off n src) :=
  lsbWrite_ends (h.bufLen s) (h.pix s) rfl (h.setPix s)

theorem framePayload (s : State) (hlen : (f s).dataLen = s.dataLen) :
    (framePayload s).Ends (Applied f) (framePayload (f s)) := by
  unfold Machine.framePayload
  rw [hlen, h.dat]
  rcases CmdResult.ends_cases (h.lsbWrite s 32 s.dataLen.toNat (Memory.read s.dat)) with
    ⟨t, _, e, e', rfl⟩ | ⟨c, t, _, e, e', rfl⟩ | ⟨c, e, e'⟩ <;> rw [e, e']
  · rfl
  · have hdraw : (drawLenPrefix t).Ends (Applied f) (drawLenPrefix (f t)) := by
      unfold drawLenPrefix writeLenPrefix
      rw [h.nextDraw, h.draws]
      exact h.lsbWrite _ _ _ _
    exact hdraw.andThen fun _ _ hww' => ⟨rfl, hww'⟩
  · rfl

theorem exec_lsbWrite (hoffset : (f s).bitOffset = s.bitOffset) (hlen : (f s).dataLen = s.dataLen) :
    exec .lsbWrite (f s) = mapNext g (exec .lsbWrite s) := by
  refine finishCommand_applied h.completes (checkConfig_ends (h.pixcap s) (h.bufLen s) rfl ?_)
  rw [hoffset, hlen, h.dat]
  exact h.lsbWrite _ _ _ _

theorem exec_lsbReadInt (hoffset : (f s).bitOffset = s.bitOffset) (hset : ∀ t v, (f t).setResult v = f (t.setResult v)) :
    exec .lsbReadInt (f s) = mapNext g (exec .lsbReadInt s) :=
  exec_lsbReadInt_applied h.completes (h.pixcap s) (h.bufLen s) hoffset (by rw [h.pix]) (hset s)

theorem exec_lsbReadBytes (hoffset : (f s).bitOffset = s.bitOffset) (hlen : (f s).dataLen = s.dataLen) :
    exec .lsbReadBytes (f s) = mapNext g (exec .lsbReadBytes s) := by
  refine finishCommand_applied h.completes (checkConfig_ends (h.pixcap s) (h.bufLen s) rfl ?_)
  rw [hoffset, hlen, h.dat]
  exact lsbReadBits_ends (h.bufLen s) (by rw [h.pix]) rfl fun xs _ => h.setDat s _

theorem exec_frameEncode (hlen : ∀ t, (f t).dataLen = t.dataLen) :
    exec .frameEncode (f s) = mapNext g (exec .frameEncode s) := by
  refine finishCommand_applied h.completes (checkConfig_ends (h.pixcap s) (h.bufLen s) rfl ?_)
  rw [hlen]
  refine CmdResult.Ends.andThen (h.lsbWrite s 0 4 _) fun t _ htu => ?_
  rw [htu]
  exact h.framePayload t (hlen t)

theorem exec_frameDecode (hset : ∀ t v, (f t).setResult v = f (t.setResult v)) :
    exec .frameDecode (f s) = mapNext g (exec .frameDecode s) := by
  refine finishCommand_applied h.completes (checkConfig_ends (h.pixcap s) (h.bufLen s) rfl ?_)
  refine lsbReadBits_ends (h.bufLen s) (by rw [h.pix]) rfl fun xs _ =>
    lsbReadBits_ends (h.bufLen s) (by rw [h.pix]) rfl fun ys _ => ?_
  rw [h.dat]
  exact (congrArg (State.setResult · _) (h.setDat s _)).trans (hset _ _)

end KeepsPixCommands

/-- CMD, DATCAP, the fault set and STATUS are read by no command, and of STATUS a completion keeps OVR alone (30 R93, R99). -/
theorem exec_ignores_control (i : Instr) (s : State) (w dc : Word) (fs : FaultSet) (st : Status) :
    exec i { s with cmd := w, datcap := dc, faults := fs, status := st } =
      mapNext (fun t => { t with cmd := w, datcap := dc, faults := fs, status := { t.status with ovr := st.ovr } })
        (exec i s) := by
  have hkeeps : KeepsPixCommands (fun t => { t with cmd := w, datcap := dc, faults := fs, status := st })
      (fun t => { t with cmd := w, datcap := dc, faults := fs, status := { t.status with ovr := st.ovr } }) := {}
  cases i with
  -- elaborated alone, since a lambda f cannot be found by unification with the goal
  | lenToBytes => exact (exec_lenToBytes_applied hkeeps.completes (s := s) rfl rfl fun _ => rfl :)
  | lenFromBytes => exact (exec_lenFromBytes_applied hkeeps.completes (s := s) rfl fun _ => rfl :)
  | lsbWrite => exact hkeeps.exec_lsbWrite rfl rfl
  | lsbReadInt => exact hkeeps.exec_lsbReadInt rfl fun _ _ => rfl
  | lsbReadBytes => exact hkeeps.exec_lsbReadBytes rfl rfl
  | frameEncode => exact hkeeps.exec_frameEncode fun _ => rfl
  | frameDecode => exact hkeeps.exec_frameDecode fun _ _ => rfl

/-- Settles O12: replacing the registers that R93 does not list keeps what the command reads and writes. -/
theorem commandsReadOnlyTheirRegisters : Obligations.CommandsReadOnlyTheirRegisters := by
  refine ⟨exec_ignores_control, fun s p b o d r => ?_, fun s p b o d l h => ?_, fun s l h y r => ?_, fun s d l h y => ?_,
    fun s l h y r => ?_, fun s o l h y r => ?_, fun s o d l h y => ?_⟩
  · exact exec_lenToBytes_applied
      (f := fun t => { t with pixcap := p, bufLen := b, bitOffset := o, dataLen := d, result := r })
      (fun _ _ => rfl) rfl rfl fun _ => rfl
  · exact exec_lenFromBytes_applied
      (f := fun t => { t with pixcap := p, bufLen := b, bitOffset := o, dataLen := d, lenInLo := l, lenInHi := h })
      (fun _ _ => rfl) rfl fun _ => rfl
  · exact KeepsPixCommands.exec_lsbWrite (f := fun t => { t with lenInLo := l, lenInHi := h, lenBytes := y, result := r })
      {} rfl rfl
  · exact KeepsPixCommands.exec_lsbReadInt (f := fun t => { t with dataLen := d, lenInLo := l, lenInHi := h, lenBytes := y })
      {} rfl fun _ _ => rfl
  · exact KeepsPixCommands.exec_lsbReadBytes
      (f := fun t => { t with lenInLo := l, lenInHi := h, lenBytes := y, result := r })
      {} rfl rfl
  · exact KeepsPixCommands.exec_frameEncode
      (f := fun t => { t with bitOffset := o, lenInLo := l, lenInHi := h, lenBytes := y, result := r })
      {} fun _ => rfl
  · exact KeepsPixCommands.exec_frameDecode
      (f := fun t => { t with bitOffset := o, dataLen := d, lenInLo := l, lenInHi := h, lenBytes := y })
      {} fun _ _ => rfl

end Sys2Proof.Machine
end

section
/-! PROOFS. The bytes that a command does not read do not matter to it (O57): the reading commands by the stages of the
section above, the writing ones by those of AgreesOn, on the window of the command. -/

namespace Sys2Proof.Machine

/-- Storing the same bytes from address 0 on to two memories leaves the same bytes there. -/
theorem sameWithin_writeSeq (m d : Memory) {bs : List Byte} {n : Nat} (hlen : bs.length = n) :
    sameWithin 0 n m d (Memory.writeSeq m 0 bs) (Memory.writeSeq d 0 bs) := by
  intro a
  subst hlen
  by_cases ha : a < bs.length <;> simp [Memory.read_writeSeq, ha]

/-- Memories that agree on a window are a start for sameWithin. -/
theorem sameWithin_start {lo hi : Nat} {m m' : Memory}
    (h : ∀ a, lo ≤ a → a < hi → Memory.read m' a = Memory.read m a) : sameWithin lo hi m m' m m' := by
  intro a
  split
  · next ha => exact h a ha.1 ha.2
  · exact ⟨rfl, rfl⟩

/-- Only LSB_READ_BYTES and FRAME_DECODE write DAT (30 R93). -/
theorem exec_dat {i : Instr} {s t : State} (h : exec i s = .next t) (hbytes : i ≠ .lsbReadBytes) (hdecode : i ≠ .frameDecode) :
    t.dat = s.dat := by
  rcases exec_next h with ⟨e, -, rfl⟩ | ⟨-, v, rfl⟩ | ⟨-, rfl⟩ | ⟨-, v, rfl⟩ | ⟨-, -, -, bs, m, -, -, rfl⟩ |
    ⟨hi, -⟩ | ⟨-, -, -, m, bs, m', -, -, -, rfl⟩ | ⟨-, -, -, -, v, w, m, m', -, -, rfl⟩ | ⟨hi, -⟩
  case inr.inr.inr.inr.inr.inl => exact absurd hi hbytes
  case inr.inr.inr.inr.inr.inr.inr.inr => exact absurd hi hdecode
  all_goals rfl

/-- Two states t and u after a command that decodes n bytes into DAT, which was q in the run to t, and d, beside PIX m, in
the run to u: with code 0 the bytes decoded are the same and each keeps its own DAT bytes elsewhere; else each keeps its
DAT. -/
def DecodedAlike (n : Nat) (q m d : Memory) (e : ErrCode) (t u : State) : Prop :=
  u = { t with pix := m, dat := u.dat } ∧ if e = .ok then sameWithin 0 n q d t.dat u.dat else t.dat = q ∧ u.dat = d

section
variable {s : State} {m d : Memory} {n : Nat}

theorem decodedAlike_start {e : ErrCode} (he : e ≠ .ok) :
    DecodedAlike n s.dat m d e s { s with pix := m, dat := d } :=
  ⟨rfl, by simp [he]⟩

theorem decodedAlike_writeSeq {bs : List Byte} (hlen : bs.length = n) :
    DecodedAlike n s.dat m d .ok (s.setDat (Memory.writeSeq s.dat 0 bs))
      (State.setDat { s with pix := m, dat := d } (Memory.writeSeq d 0 bs)) :=
  ⟨rfl, sameWithin_writeSeq s.dat d hlen⟩

theorem DecodedAlike.setResult {q : Memory} {t u : State} {e : ErrCode} (h : DecodedAlike n q m d e t u) (v : Word) :
    DecodedAlike n q m d e (t.setResult v) (u.setResult v) :=
  ⟨congrArg (State.setResult · v) h.1, h.2⟩

theorem DecodedAlike.complete {q : Memory} {t u : State} {e : ErrCode} (h : DecodedAlike n q m d e t u) :
    DecodedAlike n q m d (t.complete e).status.err (t.complete e) (u.complete e) :=
  ⟨congrArg (State.complete · e) h.1, h.2⟩

/-- LSB_READ_BYTES reads its window of PIX, and of DAT nothing (42 R152). -/
theorem execLsbReadBytes_reads
    (hm : ∀ a, s.bitOffset.toNat ≤ a → a < s.bitOffset.toNat + 8 * s.dataLen.toNat → Memory.read m a = Memory.read s.pix a) :
    endAlike (fun t u => DecodedAlike s.dataLen.toNat s.dat m d t.status.err t u)
      (exec .lsbReadBytes s) (exec .lsbReadBytes { s with pix := m, dat := d }) := by
  refine finishCommand_endAlike (R := DecodedAlike s.dataLen.toNat s.dat m d) ?_ fun e t u htu => htu.complete
  refine checkConfig_ends (s := s) (u := { s with pix := m, dat := d }) rfl rfl (decodedAlike_start (by decide)) ?_
  refine lsbReadBits_ends rfl (readCarriers_congr fun i hi => hm _ (by omega) (by omega))
    (decodedAlike_start (by decide)) fun xs hxs => ?_
  exact decodedAlike_writeSeq (bitStream_packBytes _ xs (readCarriers_some hxs).1).1

/-- FRAME_DECODE reads the length's carriers and those of the payload whose length they spell (43 R172). -/
theorem execFrameDecode_reads {L : Word} (hL : spells s.pix 0 L)
    (hm : ∀ a < 32 + 8 * L.toNat, Memory.read m a = Memory.read s.pix a) :
    endAlike (fun t u => DecodedAlike L.toNat s.dat m d t.status.err t u)
      (exec .frameDecode s) (exec .frameDecode { s with pix := m, dat := d }) := by
  refine finishCommand_endAlike (R := DecodedAlike L.toNat s.dat m d) ?_ fun e t u htu => htu.complete
  refine checkConfig_ends (s := s) (u := { s with pix := m, dat := d }) rfl rfl (decodedAlike_start (by decide)) ?_
  refine lsbReadBits_ends rfl (readCarriers_congr fun i hi => hm _ (by omega))
    (decodedAlike_start (by decide)) fun xs hxs => ?_
  obtain ⟨hspells, hvalue⟩ := readCarriers_spells hxs
  have hlength : bitsValue xs = L.toNat := by rw [← hvalue, spells_unique hL hspells]
  rw [hlength]
  refine lsbReadBits_ends rfl (readCarriers_congr fun i hi => hm _ (by omega))
    (decodedAlike_start (by decide)) fun ys hys => ?_
  exact (decodedAlike_writeSeq (bitStream_packBytes _ ys (readCarriers_some hys).1).1).setResult _

/-- A command that does not write DAT, on two states that stay alike up to DAT, leaves each its own DAT. -/
theorem endAlike_of_alike {i : Instr} (hbytes : i ≠ .lsbReadBytes) (hdecode : i ≠ .frameDecode)
    {P Q : Memory → Memory → Prop} (h : endAlike (Alike P Q) (exec i s) (exec i { s with pix := m, dat := d })) :
    endAlike (fun t u => u = { t with pix := u.pix, dat := d } ∧ P t.pix u.pix)
      (exec i s) (exec i { s with pix := m, dat := d }) := by
  rcases endAlike_cases h with ⟨t, u, ht, hu, m', d', rfl, hm', -⟩ | ⟨f, hf, hf'⟩
  · obtain rfl : d' = d := exec_dat hu hbytes hdecode
    rw [ht, hu]
    exact ⟨rfl, hm'⟩
  · rw [hf, hf']
    rfl

/-- LSB_WRITE reads DAT[0 .. DATA_LEN) and its window of PIX (41 R131). -/
theorem execLsbWrite_reads
    (hm : ∀ a, s.bitOffset.toNat ≤ a → a < s.bitOffset.toNat + 8 * s.dataLen.toNat → Memory.read m a = Memory.read s.pix a)
    (hd : ∀ j < s.dataLen.toNat, Memory.read d j = Memory.read s.dat j) :
    endAlike (fun t u => u = { t with pix := u.pix, dat := d } ∧
        sameWithin s.bitOffset.toNat (s.bitOffset.toNat + 8 * s.dataLen.toNat) s.pix m t.pix u.pix)
      (exec .lsbWrite s) (exec .lsbWrite { s with pix := m, dat := d }) := by
  have hdat := sameWithin_start fun a (_ : 0 ≤ a) => hd a
  have halike : Alike (sameWithin s.bitOffset.toNat (s.bitOffset.toNat + 8 * s.dataLen.toNat) s.pix m)
      (sameWithin 0 s.dataLen.toNat s.dat d) s { s with pix := m, dat := d } := ⟨m, d, rfl, sameWithin_start hm, hdat⟩
  refine endAlike_of_alike (by decide) (by decide)
    (finishCommand_alike (checkConfig_alike halike fun _ => lsbWrite_alike halike (fun _ => ?_) fun _ => ?_))
  · exact ((AgreesOn.of_sameWithin _ _ _ _).mono (Nat.le_refl 0) (by omega)).gatherBytes_eq hdat
  · exact AgreesOn.of_sameWithin _ _ _ _

/-- FRAME_ENCODE reads DAT[0 .. DATA_LEN) and the carriers of the length and the payload (43 R170). -/
theorem execFrameEncode_reads (hm : ∀ a < 32 + 8 * s.dataLen.toNat, Memory.read m a = Memory.read s.pix a)
    (hd : ∀ j < s.dataLen.toNat, Memory.read d j = Memory.read s.dat j) :
    endAlike (fun t u => u = { t with pix := u.pix, dat := d } ∧
        sameWithin 0 (32 + 8 * s.dataLen.toNat) s.pix m t.pix u.pix)
      (exec .frameEncode s) (exec .frameEncode { s with pix := m, dat := d }) := by
  have halike : Alike (sameWithin 0 (32 + 8 * s.dataLen.toNat) s.pix m) (sameWithin 0 s.dataLen.toNat s.dat d) s
      { s with pix := m, dat := d } :=
    ⟨m, d, rfl, sameWithin_start fun a _ => hm a, sameWithin_start fun a _ => hd a⟩
  have hpix := AgreesOn.of_sameWithin 0 (32 + 8 * s.dataLen.toNat) s.pix m
  have hlength := hpix.mono (Nat.le_refl 0) (show 32 ≤ 32 + 8 * s.dataLen.toNat by omega)
  refine endAlike_of_alike (by decide) (by decide) (finishCommand_alike (checkConfig_alike halike fun _ =>
    CmdResult.alike_andThen (writeLenPrefix_alike halike _ fun _ => hlength) fun t u hdone htu => ?_))
  obtain ⟨-, m', rfl⟩ := writeLenPrefix_done hdone
  exact framePayload_alike htu hlength (fun _ => hpix.mono (Nat.zero_le _) (Nat.le_refl _)) fun _ =>
    AgreesOn.of_sameWithin _ _ _ _

end

/-- Settles O57: one lemma per command, on the window of the command. -/
theorem commandsReadOnlyTheirBytes : Obligations.CommandsReadOnlyTheirBytes := by
  refine ⟨fun i s m d hi => ?_, fun s m d hm => ?_, fun s m d => execLsbReadBytes_reads,
    fun s L m d => execFrameDecode_reads, fun s m d => execLsbWrite_reads, fun s m d => execFrameEncode_reads⟩
  · rcases hi with rfl | rfl
    · exact exec_lenToBytes_applied (f := fun t => { t with pix := m, dat := d }) (fun _ _ => rfl) rfl rfl fun _ => rfl
    · exact exec_lenFromBytes_applied (f := fun t => { t with pix := m, dat := d }) (fun _ _ => rfl) rfl fun _ => rfl
  · exact exec_lsbReadInt_applied (f := fun t => { t with pix := m, dat := d }) (fun _ _ => rfl) rfl rfl rfl
      (readCarriers_congr fun i hi => hm _ (by omega) (by omega)) fun _ => rfl

end Sys2Proof.Machine
end

section
/-! PROOFS. The length codec (O13 to O16). A word and its four big-endian bytes determine each other; ToBytes32 gives the
bytes of the word whose value is n, FromBytes32 the value of the word; and the operand of LEN_TO_BYTES is HI * 2^32 + LO, so
its range depends on HI alone. -/

namespace Sys2Proof.Machine

@[simp] theorem packLenBytes_wordBytes (v : Word) : packLenBytes (wordBytes v) = v := by
  have hhigh : v.extractLsb' 24 8 ++ v.extractLsb' 16 8 = v.extractLsb' 16 16 :=
    BitVec.extractLsb'_append_extractLsb'_eq_extractLsb' rfl
  have hmid : v.extractLsb' 16 16 ++ v.extractLsb' 8 8 = v.extractLsb' 8 24 :=
    BitVec.extractLsb'_append_extractLsb'_eq_extractLsb' rfl
  have hall : v.extractLsb' 8 24 ++ v.extractLsb' 0 8 = v.extractLsb' 0 32 :=
    BitVec.extractLsb'_append_extractLsb'_eq_extractLsb' rfl
  simp only [wordBytes, packLenBytes, hhigh, hmid, hall, BitVec.extractLsb'_eq_self]

/-- The byte at bits k + 7 .. k of a word is its value without the low k bits, modulo 2^8. -/
theorem extractLsb'_eq_ofInt_div (v : Word) (k : Nat) : v.extractLsb' k 8 = BitVec.ofInt 8 ((v.toNat : Int) / 2 ^ k) := by
  have hdiv : ((v.toNat / 2 ^ k : Nat) : Int) = (v.toNat : Int) / 2 ^ k := by push_cast; rfl
  rw [← hdiv, BitVec.ofInt_natCast, ← Nat.shiftRight_eq_div_pow]
  rfl

/-- FromBytes32 of the four bytes of a word is the value of the word (40 R111). -/
theorem fromBytes32_extractLsb' (v : Word) :
    fromBytes32 (v.extractLsb' 24 8) (v.extractLsb' 16 8) (v.extractLsb' 8 8) (v.extractLsb' 0 8) = v.toNat := by
  have hv := v.isLt
  simp only [fromBytes32, BitVec.extractLsb'_toNat, Nat.shiftRight_eq_div_pow]
  omega

theorem toBytes32_error {n : Int} (h : n < 0 ∨ 2 ^ 32 - 1 < n) : toBytes32 n = .error .range := if_pos h

theorem toBytes32_toNat (v : Word) : toBytes32 (v.toNat : Int) = .ok (wordBytes v) := by
  have hv := v.isLt
  have hrange : ¬ ((v.toNat : Int) < 0 ∨ 2 ^ 32 - 1 < (v.toNat : Int)) := by omega
  rw [toBytes32, if_neg hrange, BitVec.ofInt_natCast, BitVec.ofNat_toNat, BitVec.setWidth_eq]

/-- Every integer in the range of ToBytes32 is the value of a word. -/
theorem exists_word_of_range {n : Int} (h0 : 0 ≤ n) (h1 : n ≤ 2 ^ 32 - 1) : ∃ v : Word, n = (v.toNat : Int) := by
  refine ⟨BitVec.ofNat 32 n.toNat, ?_⟩
  rw [BitVec.toNat_ofNat, Nat.mod_eq_of_lt (by omega), Int.toNat_of_nonneg h0]

/-- sint64(HI : LO) has HI signed and LO unsigned (10 R33). -/
theorem lenOperand_eq (s : State) : lenOperand s = 2 ^ 32 * s.lenInHi.toInt + s.lenInLo.toNat :=
  BitVec.toInt_append.trans (if_neg (by decide))

theorem lenOperand_eq_lenInLo {s : State} (h : s.lenInHi = 0#32) : lenOperand s = s.lenInLo.toNat := by
  rw [lenOperand_eq, h, BitVec.toInt_zero]
  omega

/-- LEN_IN_HI alone decides whether the operand is out of the range of ToBytes32 (40 R112). -/
theorem lenInHi_ne_zero_iff (s : State) : s.lenInHi ≠ 0#32 ↔ lenOperand s < 0 ∨ 2 ^ 32 - 1 < lenOperand s := by
  have hlow := s.lenInLo.isLt
  rw [lenOperand_eq, Ne, ← BitVec.toInt_inj, BitVec.toInt_zero]
  omega

/-- LEN_TO_BYTES with LEN_IN_HI = 0 copies LEN_IN_LO (40 R112). -/
theorem exec_lenToBytes_of_high_zero {s : State} (h : s.lenInHi = 0#32) :
    exec .lenToBytes s = .next ((s.setLenBytes s.lenInLo).complete .ok) := by
  have hbytes : toBytes32 (lenOperand s) = .ok (wordBytes s.lenInLo) := by
    rw [lenOperand_eq_lenInLo h, toBytes32_toNat]
  rw [exec_lenToBytes, execLenToBytes_ok hbytes, packLenBytes_wordBytes]

/-- LEN_FROM_BYTES copies LEN_BYTES (40 R113). -/
theorem exec_lenFromBytes_next (s : State) : exec .lenFromBytes s = .next ((s.setResult s.lenBytes).complete .ok) := by
  have hvalue : lenBytesValue s = s.lenBytes.toNat := fromBytes32_extractLsb' s.lenBytes
  rw [exec_lenFromBytes, execLenFromBytes_next, hvalue, BitVec.ofNat_toNat, BitVec.setWidth_eq]

/-- Settles O13: an integer in range is the value of a word, whose bytes are its quotients. -/
theorem toBytes32GivesBigEndianBytes : Obligations.ToBytes32GivesBigEndianBytes := by
  refine fun n => ⟨toBytes32_error, fun h0 h1 => ?_⟩
  obtain ⟨v, rfl⟩ := exists_word_of_range h0 h1
  rw [toBytes32_toNat, wordBytes]
  simp only [extractLsb'_eq_ofInt_div, pow_zero, Int.ediv_one]

/-- Settles O14, by the operand's value HI * 2^32 + LO. -/
theorem lenToBytesStoresTheLengthOrRange : Obligations.LenToBytesStoresTheLengthOrRange := by
  refine fun s => ⟨fun h => ⟨exec_lenToBytes_of_high_zero h, (lenOperand_eq_lenInLo h).symm⟩, fun h => ?_,
    lenInHi_ne_zero_iff s⟩
  exact execLenToBytes_error (toBytes32_error ((lenInHi_ne_zero_iff s).1 h))

/-- Settles O15, by FromBytes32 of the four bytes of LEN_BYTES. -/
theorem lenFromBytesReadsTheLength : Obligations.LenFromBytesReadsTheLength := by
  refine fun s => ⟨exec_lenFromBytes_next s, ?_⟩
  have hvalue := fromBytes32_extractLsb' s.lenBytes
  rw [fromBytes32] at hvalue
  omega

/-- Settles O16: the round trip of a word through its bytes, and the two copies one after the other. -/
theorem lengthCodecRoundTrip : Obligations.LengthCodecRoundTrip := by
  refine ⟨fun n hn => ?_, fun s h => ?_⟩
  · obtain ⟨v, hv⟩ := exists_word_of_range (n := (n : Int)) (by omega) (by omega)
    refine ⟨_, _, _, _, hv ▸ toBytes32_toNat v, ?_⟩
    rw [fromBytes32_extractLsb']
    omega
  · exact ⟨_, _, exec_lenToBytes_of_high_zero h, rfl, exec_lenFromBytes_next _, rfl, rfl⟩

end Sys2Proof.Machine
end

section
/-! PROOFS. LsbWrite and LSB_WRITE (O17 to O19), and the bits of PIX that no command changes (O10). A successful LsbWrite is
one carrier stream write of the bytes its source yielded; what it keeps and what it stores follow from that. -/

namespace Sys2Proof.Machine

theorem sameUpperBits_refl (m : Memory) : sameUpperBits m m := fun _ => rfl

theorem sameUpperBits_trans {m m' m'' : Memory} (h : sameUpperBits m m') (h' : sameUpperBits m' m'') :
    sameUpperBits m m'' := fun a => (h' a).trans (h a)

/-- A successful LsbWrite fits, and has written its source's bytes into PIX and changed nothing else (41 R130). -/
theorem lsbWrite_eq_done {s t : State} {off n : Nat} {d : Nat → Option Byte} (h : lsbWrite s off n d = .done t) :
    off + 8 * n ≤ s.bufLen.toNat ∧ ∃ bs m, gatherBytes d 0 n = some bs ∧
      writeCarriers s.pix off (bitStream bs) = some m ∧ t = s.setPix m := by
  rcases lsbWrite_cases s off n d with ⟨-, h'⟩ | ⟨hfit, bs, m, hg, hm, h'⟩ | ⟨-, -, h'⟩ <;> rw [h'] at h <;> cases h
  exact ⟨hfit, bs, m, hg, hm, rfl⟩

/-- The check of LsbWrite (41 R130): CapacityError exactly when the window does not fit. -/
theorem lsbWrite_eq_raised_iff (s : State) (off n : Nat) (d : Nat → Option Byte) :
    lsbWrite s off n d = .raised .capacity s ↔ ¬off + 8 * n ≤ s.bufLen.toNat := by
  rcases lsbWrite_cases s off n d with ⟨hfit, h⟩ | ⟨hfit, bs, m, -, -, h⟩ | ⟨hfit, -, h⟩
  · exact iff_of_true h (Nat.not_le_of_lt hfit)
  · exact iff_of_false (by simp [h]) (not_not_intro hfit)
  · exact iff_of_false (by simp [h]) (not_not_intro hfit)

/-- Writing gathered bytes as a carrier stream stores bit 7 - k of byte j in carrier p + 8j + k (41 R133). -/
theorem writeCarriers_gatherBytes_bit {m m' : Memory} {p n : Nat} {d : Nat → Option Byte} {bs : List Byte}
    (hg : gatherBytes d 0 n = some bs) (hm : writeCarriers m p (bitStream bs) = some m') {j k : Nat} (hj : j < n)
    (hk : k < 8) : ∃ x b, d j = some x ∧ Memory.read m' (p + 8 * j + k) = some b ∧ lsb b = x.getLsbD (7 - k) := by
  obtain ⟨hlen, hbytes⟩ := gatherBytes_some hg
  obtain ⟨x, hx⟩ : ∃ x, bs[j]? = some x := ⟨_, List.getElem?_eq_getElem (hlen ▸ hj)⟩
  have hsource : d j = some x := by simpa [hx] using (hbytes j hj).symm
  obtain ⟨c, hc⟩ := Option.isSome_iff_exists.1 (initOn_of_writeCarriers hm hlen (8 * j + k) (by omega))
  refine ⟨x, withLsb c (x.getLsbD (7 - k)), hsource, ?_, lsb_withLsb _ _⟩
  rw [Nat.add_assoc, writeCarriers_read hm, if_pos (by rw [bitStream_length]; omega), hc, Nat.add_sub_cancel_left,
    bitStream_getElem? bs j hk, hx]
  rfl

/-- Settles O10: the commands that write PIX do so by carrier stream writes, which keep bits 7..1. -/
theorem noCommandChangesUpperBits : Obligations.NoCommandChangesUpperBits := by
  intro i s t h
  rcases exec_next h with ⟨e, -, rfl⟩ | ⟨-, v, rfl⟩ | ⟨-, rfl⟩ | ⟨-, v, rfl⟩ | ⟨-, -, -, bs, m, -, hm, rfl⟩ |
    ⟨-, -, -, bs, -, rfl⟩ | ⟨-, -, -, m, bs, m', -, hm, hm', rfl⟩ | ⟨-, -, -, -, v, w, m, m', hm, hm', rfl⟩ |
    ⟨-, -, L, bs, -, -, -, rfl⟩
  -- LSB_WRITE
  case inr.inr.inr.inr.inl => exact writeCarriers_sameUpperBits hm
  -- FRAME_ENCODE: the length, then the payload or, when that fails, the free draw in the length's place
  case inr.inr.inr.inr.inr.inr.inl | inr.inr.inr.inr.inr.inr.inr.inl =>
    exact sameUpperBits_trans (writeCarriers_sameUpperBits hm) (writeCarriers_sameUpperBits hm')
  all_goals exact sameUpperBits_refl s.pix

/-- Settles O17, by the laws of the carrier stream write that LsbWrite ends in. -/
theorem lsbWriteIsNonDestructive : Obligations.LsbWriteIsNonDestructive := by
  intro s t off n d h
  obtain ⟨-, bs, m, hg, hm, rfl⟩ := lsbWrite_eq_done h
  refine ⟨rfl, writeCarriers_sameUpperBits hm, fun a ha => writeCarriers_outside hm ?_⟩
  rwa [bitStream_length, (gatherBytes_some hg).1]

/-- Settles O18: the check decides the CapacityError, and bit 8j + k of the stream is bit 7 - k of byte j. -/
theorem lsbWriteStoresTheBits : Obligations.LsbWriteStoresTheBits := by
  refine fun s off n d => ⟨lsbWrite_eq_raised_iff s off n d, fun t h => ?_⟩
  obtain ⟨hfit, bs, m, hg, hm, rfl⟩ := lsbWrite_eq_done h
  exact ⟨hfit, fun j hj k hk => writeCarriers_gatherBytes_bit hg hm hj (Nat.lt_succ_of_le hk)⟩

/-- Settles O19: the LsbWrite of LSB_WRITE succeeds, and R132 and R133 (O17, O18) say what it leaves. -/
theorem lsbWriteCompletes : Obligations.LsbWriteCompletes := by
  intro s hcap hfit hdat hpix
  obtain ⟨bs, m, -, -, hdone⟩ := lsbWrite_done (d := Memory.read s.dat) hfit (by simpa [Memory.initOn] using hdat) hpix
  have hexec : exec .lsbWrite s = .next ((s.setPix m).complete .ok) := by
    rw [exec_lsbWrite, execLsbWrite, checkConfig_ok _ hcap, hdone, finishCommand_done]
  obtain ⟨-, hupper, houtside⟩ := lsbWriteIsNonDestructive s _ _ _ _ hdone
  obtain ⟨-, hbits⟩ := (lsbWriteStoresTheBits s _ _ _).2 _ hdone
  refine ⟨m, hexec, fun j hj k hk => ?_, hupper, houtside⟩
  obtain ⟨x, b, hx, hb, hbit⟩ := hbits j hj k (Nat.le_of_lt_succ hk)
  rw [setPix_pix] at hb
  rw [carrierBit, payloadBit, hb, hx]
  exact hbit

end Sys2Proof.Machine
end

section
/-! PROOFS. LSB_READ_INT and LSB_READ_BYTES (O20 to O22). When its checks pass and its window is initialised, each is one
carrier stream read, and what it leaves follows from the stream read; the stream that a carrier stream write stored is read
back from the same carriers. -/

namespace Sys2Proof.Machine

/-- LSB_READ_INT past its checks (42 R151): RESULT is the value of the stream read. -/
theorem exec_lsbReadInt_next {s : State} (hcap : s.bufLen.toNat ≤ s.pixcap.toNat)
    (hfit : s.bitOffset.toNat + 32 ≤ s.bufLen.toNat) (hinit : s.pix.initOn s.bitOffset.toNat 32) :
    ∃ xs, readCarriers s.pix s.bitOffset.toNat 32 = some xs ∧
      exec .lsbReadInt s = .next ((s.setResult (BitVec.ofNat 32 (bitsValue xs))).complete .ok) := by
  rw [exec_lsbReadInt]
  rcases execLsbReadInt_cases s with ⟨hbad, -⟩ | ⟨-, hout, -⟩ | ⟨-, -, hnext⟩ | ⟨-, -, huninit, -⟩
  · exact absurd hcap (Nat.not_le_of_lt hbad)
  · exact absurd hfit (Nat.not_le_of_lt hout)
  · exact hnext
  · exact absurd hinit huninit

/-- LSB_READ_BYTES past its checks (42 R152): the bytes packed from the stream read are stored in DAT. -/
theorem exec_lsbReadBytes_next {s : State} (hcap : s.bufLen.toNat ≤ s.pixcap.toNat)
    (hfit : s.bitOffset.toNat + 8 * s.dataLen.toNat ≤ s.bufLen.toNat)
    (hinit : s.pix.initOn s.bitOffset.toNat (8 * s.dataLen.toNat)) :
    ∃ xs, readCarriers s.pix s.bitOffset.toNat (8 * s.dataLen.toNat) = some xs ∧
      exec .lsbReadBytes s = .next ((s.setDat (Memory.writeSeq s.dat 0 (packBytes xs))).complete .ok) := by
  rw [exec_lsbReadBytes]
  rcases execLsbReadBytes_cases s with ⟨hbad, -⟩ | ⟨-, hout, -⟩ | ⟨-, -, hnext⟩ | ⟨-, -, huninit, -⟩
  · exact absurd hcap (Nat.not_le_of_lt hbad)
  · exact absurd hfit (Nat.not_le_of_lt hout)
  · exact hnext
  · exact absurd hinit huninit

/-- Bytes stored from address 0 on are read back at their index. -/
theorem read_writeSeq_zero (m : Memory) {bs : List Byte} {j : Nat} (hj : j < bs.length) :
    Memory.read (Memory.writeSeq m 0 bs) j = bs[j]? := by
  rw [Memory.read_writeSeq, if_pos (by omega), Nat.sub_zero]

/-- Bit 7 - k of byte j packed from a stream read is the LSB of carrier p + 8j + k (42 R152). -/
theorem packBytes_readCarriers_bit {m : Memory} {p n : Nat} {xs : List Bool} (h : readCarriers m p (8 * n) = some xs)
    {j : Nat} (hj : j < n) :
    ∃ x, (packBytes xs)[j]? = some x ∧ ∀ k < 8, x.getLsbD (7 - k) = carrierBit m (p + 8 * j + k) := by
  have hlen := (readCarriers_some h).1
  obtain ⟨x, hx, -⟩ := packBytes_bit hlen hj (k := 0) (by omega)
  refine ⟨x, hx, fun k hk => ?_⟩
  obtain ⟨y, hy, hbit⟩ := packBytes_bit hlen hj hk
  obtain rfl : y = x := Option.some.inj (hy.symm.trans hx)
  have hcarrier := readCarriers_bit h (i := 8 * j + k) (by omega)
  rw [Nat.add_assoc]
  exact Option.some.inj (hbit.symm.trans hcarrier)

/-- A carrier stream read gives back the stream that a carrier stream write stored (42 R153). -/
theorem readCarriers_writeCarriers {m m' : Memory} {p : Nat} {xs : List Bool} (h : writeCarriers m p xs = some m') :
    readCarriers m' p xs.length = some xs := by
  have hinit : m.initOn p xs.length := writeCarriers_isSome.1 (by simp [h])
  have hread : (readCarriers m' p xs.length).isSome = true :=
    readCarriers_isSome.2 (initOn_of_sameUpperBits (writeCarriers_sameUpperBits h) hinit)
  obtain ⟨ys, hys⟩ := Option.isSome_iff_exists.1 hread
  have hlen := (readCarriers_some hys).1
  rw [hys, Option.some.injEq]
  refine List.ext_getElem hlen fun i hi hi' => ?_
  have hbit : ys[i]? = some (carrierBit m' (p + i)) := readCarriers_bit hys hi'
  rwa [writeCarriers_bit h hi', List.getElem?_eq_getElem hi, Option.some.injEq] at hbit

/-- Only LSB_WRITE and FRAME_ENCODE write PIX (30 R93). -/
theorem exec_pix {i : Instr} {s t : State} (h : exec i s = .next t) (hwrite : i ≠ .lsbWrite) (hencode : i ≠ .frameEncode) :
    t.pix = s.pix := by
  rcases exec_next h with ⟨e, -, rfl⟩ | ⟨-, v, rfl⟩ | ⟨-, rfl⟩ | ⟨-, v, rfl⟩ | ⟨hi, -⟩ | ⟨-, -, -, bs, -, rfl⟩ |
    ⟨hi, -⟩ | ⟨hi, -⟩ | ⟨-, -, L, bs, -, -, -, rfl⟩
  case inr.inr.inr.inr.inl => exact absurd hi hwrite
  case inr.inr.inr.inr.inr.inr.inl | inr.inr.inr.inr.inr.inr.inr.inl => exact absurd hi hencode
  all_goals rfl

/-- Settles O20: the value of the stream read is the number its carriers spell. -/
theorem lsbReadIntCompletes : Obligations.LsbReadIntCompletes := by
  intro s hcap hfit hinit
  obtain ⟨xs, hxs, hexec⟩ := exec_lsbReadInt_next hcap hfit hinit
  exact ⟨_, hexec, (readCarriers_spells hxs).1⟩

/-- Settles O21: DAT holds the bytes packed from the stream read, and nothing else is stored to it. -/
theorem lsbReadBytesCompletes : Obligations.LsbReadBytesCompletes := by
  intro s hcap hfit hinit
  obtain ⟨xs, hxs, hexec⟩ := exec_lsbReadBytes_next hcap hfit hinit
  have hlen : (packBytes xs).length = s.dataLen.toNat := (bitStream_packBytes _ xs (readCarriers_some hxs).1).1
  refine ⟨_, hexec, fun j hj => ?_, fun a ha => ?_⟩
  · rw [setDat_dat, read_writeSeq_zero _ (hlen ▸ hj)]
    exact packBytes_readCarriers_bit hxs hj
  · rw [setDat_dat, Memory.read_writeSeq, if_neg (by omega)]

/-- Settles O22: the read commands keep PIX and the operands; and the stream that LsbWrite stored is read back, so the
bytes packed from it are those the byte source yielded. -/
theorem lsbReadBytesUndoesLsbWrite : Obligations.LsbReadBytesUndoesLsbWrite := by
  refine ⟨fun i s t hi h => ?_, fun s t u off n d h hpix hbufLen hcap hoffset hdataLen => ?_⟩
  · have hframe := exec_frame h
    have hpix : t.pix = s.pix := by rcases hi with rfl | rfl <;> exact exec_pix h (by decide) (by decide)
    exact ⟨hpix, hframe.bufLen, hframe.bitOffset, hframe.dataLen⟩
  · obtain ⟨hfit, bs, m, hg, hm, rfl⟩ := lsbWrite_eq_done h
    obtain ⟨hlen, hbytes⟩ := gatherBytes_some hg
    have hback : readCarriers u.pix u.bitOffset.toNat (8 * u.dataLen.toNat) = some (bitStream bs) := by
      rw [hpix, hoffset, hdataLen, ← hlen, ← bitStream_length]
      exact readCarriers_writeCarriers hm
    obtain ⟨xs, hxs, hexec⟩ := exec_lsbReadBytes_next hcap (by rwa [hbufLen, hoffset, hdataLen])
      (initOn_of_readCarriers hback)
    obtain rfl : xs = bitStream bs := Option.some.inj (hxs.symm.trans hback)
    refine ⟨_, hexec, rfl, fun j hj => ?_⟩
    rw [complete_dat, setDat_dat, packBytes_bitStream, read_writeSeq_zero _ (hlen ▸ hj), hbytes j hj, Nat.zero_add]

end Sys2Proof.Machine
end

section
/-! PROOFS. FRAME_ENCODE and FRAME_DECODE (O27 to O31). Each has one lemma per way it completes past the configuration check;
FRAME_ENCODE's are two carrier stream writes or none, FRAME_DECODE's are stated for the length L that carriers 0 to 31
spell. The laws of the framer follow from what the two commands leave. -/

namespace Sys2Proof.Machine

/-- A window inside an initialised one is initialised. -/
theorem initOn_mono {m : Memory} {lo len lo' len' : Nat} (h : m.initOn lo len) (hlo : lo ≤ lo')
    (hhi : lo' + len' ≤ lo + len) : m.initOn lo' len' := by
  intro p hp
  have hread := h (lo' - lo + p) (by omega)
  rwa [show lo + (lo' - lo + p) = lo' + p by omega] at hread

/-- The check of LsbReadBits (42 R150): OutOfBoundsError when the window does not fit. -/
theorem lsbReadBits_outOfBounds {s : State} {off count : Nat} (k : List Bool → CmdResult)
    (h : s.bufLen.toNat < off + count) : lsbReadBits s off count k = .raised .outOfBounds s := if_pos h

theorem spells_zero_iff {m : Memory} {v : Word} : spells m 0 v ↔ ∀ i < 32, carrierBit m i = v.getLsbD (31 - i) := by
  simp only [spells, Nat.zero_add, eq_comm]

/-- Writing a word's bytes as a carrier stream makes the carriers spell the word (43 R170). -/
theorem spells_of_writeCarriers {m m' : Memory} {p : Nat} {v : Word}
    (h : writeCarriers m p (bitStream (wordBytes v)) = some m') : spells m' p v := by
  intro i hi
  have hlen : i < (bitStream (wordBytes v)).length := by simpa using hi
  have hbit := bitStream_wordBytes v hi
  rw [List.getElem?_eq_getElem hlen, Option.some.injEq] at hbit
  rw [writeCarriers_bit h hlen, hbit]

/-- A carrier stream write from carrier 32 on keeps the length that carriers 0 to 31 spell. -/
theorem spells_zero_of_writeCarriers_32 {m m' : Memory} {xs : List Bool} {v : Word} (h : writeCarriers m 32 xs = some m')
    (hv : spells m 0 v) : spells m' 0 v := by
  intro i hi
  rw [hv i hi, carrierBit, carrierBit, writeCarriers_outside h (.inl (by omega))]

/-- Writing DAT bytes as a carrier stream stores bit 7 - k of byte j in carrier p + 8j + k. -/
theorem carrierBit_of_writeCarriers_gatherBytes {m m' dat : Memory} {p n : Nat} {bs : List Byte}
    (hg : gatherBytes (Memory.read dat) 0 n = some bs) (hm : writeCarriers m p (bitStream bs) = some m') {j k : Nat}
    (hj : j < n) (hk : k < 8) : carrierBit m' (p + 8 * j + k) = payloadBit dat j k := by
  obtain ⟨x, b, hx, hb, hbit⟩ := writeCarriers_gatherBytes_bit hg hm hj hk
  rw [carrierBit, payloadBit, hb, hx]
  exact hbit

/-- FRAME_ENCODE past its checks (43 R170): the length's stream is written, and then the payload's. -/
theorem exec_frameEncode_next {s : State} (hcap : s.bufLen.toNat ≤ s.pixcap.toNat)
    (hfit : 32 + 8 * s.dataLen.toNat ≤ s.bufLen.toNat) (hdat : s.dat.initOn 0 s.dataLen.toNat)
    (hpix : s.pix.initOn 0 (32 + 8 * s.dataLen.toNat)) :
    ∃ m bs m', writeCarriers s.pix 0 (bitStream (wordBytes s.dataLen)) = some m ∧
      gatherBytes (Memory.read s.dat) 0 s.dataLen.toNat = some bs ∧ writeCarriers m 32 (bitStream bs) = some m' ∧
      exec .frameEncode s = .next ((s.setPix m').complete .ok) := by
  rw [exec_frameEncode]
  rcases execFrameEncode_cases s with ⟨hbad, -⟩ | ⟨-, hshort, -⟩ | ⟨-, -, hover, -⟩ | ⟨-, -, hnext⟩ | ⟨-, -, huninit, -⟩
  · omega
  · omega
  · omega
  · exact hnext
  · have hlength : s.pix.initOn 0 32 := initOn_mono hpix (by omega) (by omega)
    have hpayload : s.pix.initOn 32 (8 * s.dataLen.toNat) := initOn_mono hpix (by omega) (by omega)
    exact absurd ⟨hlength, .inr ⟨hdat, hpayload⟩⟩ huninit

/-- FRAME_ENCODE whose length does not fit (43 R171): nothing is written. -/
theorem exec_frameEncode_short {s : State} (hcap : s.bufLen.toNat ≤ s.pixcap.toNat) (hshort : s.bufLen.toNat < 32) :
    exec .frameEncode s = .next (s.complete .capacity) := by
  have hraised := (lsbWrite_eq_raised_iff s 0 4 (listSource (wordBytes s.dataLen))).2 (by omega)
  rw [exec_frameEncode, execFrameEncode, checkConfig_ok _ hcap, writeLenPrefix, hraised, andThen_raised,
    finishCommand_raised]

/-- FRAME_ENCODE whose payload alone does not fit (43 R171): the length's stream is written, and then the free draw's in its
place (log 4). -/
theorem exec_frameEncode_overflow {s : State} (hcap : s.bufLen.toNat ≤ s.pixcap.toNat) (hfit : 32 ≤ s.bufLen.toNat)
    (hover : s.bufLen.toNat < 32 + 8 * s.dataLen.toNat) (hpix : s.pix.initOn 0 32) :
    ∃ m m', writeCarriers s.pix 0 (bitStream (wordBytes s.dataLen)) = some m ∧
      writeCarriers m 0 (bitStream (wordBytes (Config.freePrefix s.draws))) = some m' ∧
      exec .frameEncode s = .next ((s.nextDraw.setPix m').complete .capacity) := by
  rw [exec_frameEncode]
  rcases execFrameEncode_cases s with ⟨hbad, -⟩ | ⟨-, hshort, -⟩ | ⟨-, -, -, hnext⟩ | ⟨-, hfits, -⟩ | ⟨-, -, huninit, -⟩
  · omega
  · omega
  · exact hnext
  · omega
  · exact absurd ⟨hpix, .inl hover⟩ huninit

/-- FRAME_DECODE after its length was read (43 R172): what is left is the read of the payload whose length carriers 0 to 31
spell. -/
theorem exec_frameDecode_of_spells {s : State} {L : Word} (hcap : s.bufLen.toNat ≤ s.pixcap.toNat)
    (hfit : 32 ≤ s.bufLen.toNat) (hinit : s.pix.initOn 0 32) (hL : spells s.pix 0 L) :
    exec .frameDecode s = finishCommand (lsbReadBits s 32 (8 * L.toNat) fun ys =>
      .done ((s.setDat (Memory.writeSeq s.dat 0 (packBytes ys))).setResult L)) := by
  rw [exec_frameDecode, execFrameDecode, checkConfig_ok _ hcap]
  obtain ⟨xs, hxs, hread⟩ := lsbReadBits_ok (s := s) (off := 0) (count := 32) _ (by omega) hinit
  obtain ⟨hspells, hvalue⟩ := readCarriers_spells hxs
  rw [hread, spells_unique hL hspells, hvalue]

/-- FRAME_DECODE past its checks (43 R172): the bytes packed from the payload's stream are stored in DAT. -/
theorem exec_frameDecode_next {s : State} {L : Word} (hcap : s.bufLen.toNat ≤ s.pixcap.toNat) (hL : spells s.pix 0 L)
    (hfit : 32 + 8 * L.toNat ≤ s.bufLen.toNat) (hpix : s.pix.initOn 0 (32 + 8 * L.toNat)) :
    ∃ ys, readCarriers s.pix 32 (8 * L.toNat) = some ys ∧ exec .frameDecode s =
      .next (((s.setDat (Memory.writeSeq s.dat 0 (packBytes ys))).setResult L).complete .ok) := by
  have hlength : s.pix.initOn 0 32 := initOn_mono hpix (by omega) (by omega)
  have hpayload : s.pix.initOn 32 (8 * L.toNat) := initOn_mono hpix (by omega) (by omega)
  rw [exec_frameDecode_of_spells hcap (by omega) hlength hL]
  obtain ⟨ys, hys, hread⟩ := lsbReadBits_ok (s := s) _ hfit hpayload
  exact ⟨ys, hys, by rw [hread, finishCommand_done]⟩

/-- FRAME_DECODE of an empty payload writes no DAT byte (43 R173). -/
theorem exec_frameDecode_empty {s : State} (hcap : s.bufLen.toNat ≤ s.pixcap.toNat) (hL : spells s.pix 0 0#32)
    (hfit : 32 ≤ s.bufLen.toNat) (hpix : s.pix.initOn 0 32) :
    exec .frameDecode s = .next ((s.setResult 0#32).complete .ok) := by
  obtain ⟨ys, hys, hexec⟩ := exec_frameDecode_next hcap hL hfit hpix
  obtain rfl : ys = [] := List.eq_nil_of_length_eq_zero (readCarriers_some hys).1
  exact hexec

/-- Settles O27: the length's carriers are below the payload's, so the second stream write keeps what the first stored. -/
theorem frameEncodeCompletes : Obligations.FrameEncodeCompletes := by
  intro s hcap hfit hdat hpix
  obtain ⟨m, bs, m', hm, hg, hm', hexec⟩ := exec_frameEncode_next hcap hfit hdat hpix
  have hlength := spells_zero_of_writeCarriers_32 hm' (spells_of_writeCarriers hm)
  obtain ⟨-, -, -, houtside, -⟩ := commandsLeaveOtherBytes _ _ _ hexec
  exact ⟨m', hexec, spells_zero_iff.1 hlength, fun j hj k hk => carrierBit_of_writeCarriers_gatherBytes hg hm' hj hk,
    noCommandChangesUpperBits _ _ _ hexec, houtside rfl⟩

/-- Settles O28: both stream writes of the failed payload stage are in carriers 0 to 31, and the free draw's is the last. -/
theorem failedFrameEncodeLeavesFreePrefixBits : Obligations.FailedFrameEncodeLeavesFreePrefixBits := by
  refine fun s hcap => ⟨fun hfit hover hpix => ?_, fun hshort => ⟨_, exec_frameEncode_short hcap hshort, rfl⟩⟩
  obtain ⟨m, m', hm, hm', hexec⟩ := exec_frameEncode_overflow hcap hfit hover hpix
  refine ⟨m', hexec, noCommandChangesUpperBits _ _ _ hexec, fun a ha => ?_,
    spells_zero_iff.1 (spells_of_writeCarriers hm')⟩
  rw [writeCarriers_outside hm' (.inr (by simpa using ha)), writeCarriers_outside hm (.inr (by simpa using ha))]

/-- Settles O29: DAT holds the bytes packed from the payload's stream, and nothing else is stored to it. -/
theorem frameDecodeCompletes : Obligations.FrameDecodeCompletes := by
  intro s L hcap hL hfit hpix
  obtain ⟨ys, hys, hexec⟩ := exec_frameDecode_next hcap hL hfit hpix
  have hlen : (packBytes ys).length = L.toNat := (bitStream_packBytes _ ys (readCarriers_some hys).1).1
  refine ⟨_, hexec, fun j hj => ?_, fun a ha => ?_⟩
  · rw [setResult_dat, setDat_dat, read_writeSeq_zero _ (hlen ▸ hj)]
    exact packBytes_readCarriers_bit hys hj
  · rw [setResult_dat, setDat_dat, Memory.read_writeSeq, if_neg (by omega)]

/-- Two bytes with the same bits, MSB first, are equal (00 R11). -/
theorem byte_eq_of_bits {x y : Byte} (h : ∀ k < 8, x.getLsbD (7 - k) = y.getLsbD (7 - k)) : x = y := by
  refine BitVec.eq_of_getLsbD_eq fun i hi => ?_
  simpa [show 7 - (7 - i) = i by omega] using h (7 - i) (by omega)

/-- FRAME_DECODE gives back the payload d whose frame the carriers hold (43 R173). -/
theorem exec_frameDecode_of_frame {u : State} {L : Word} {d : Memory} (hcap : u.bufLen.toNat ≤ u.pixcap.toNat)
    (hfit : 32 + 8 * L.toNat ≤ u.bufLen.toNat) (hpix : u.pix.initOn 0 (32 + 8 * L.toNat)) (hlength : spells u.pix 0 L)
    (hpayload : ∀ j < L.toNat, ∀ k < 8, carrierBit u.pix (32 + 8 * j + k) = payloadBit d j k)
    (hd : d.initOn 0 L.toNat) :
    ∃ v, exec .frameDecode u = .next v ∧ v.status.err = .ok ∧ v.result = L ∧
      ∀ j < L.toNat, Memory.read v.dat j = Memory.read d j := by
  obtain ⟨m, hexec, hbytes, -⟩ := frameDecodeCompletes u L hcap hlength hfit hpix
  refine ⟨_, hexec, rfl, rfl, fun j hj => ?_⟩
  obtain ⟨x, hx, hbits⟩ := hbytes j hj
  obtain ⟨y, hy⟩ := Option.isSome_iff_exists.1 (hd j hj)
  rw [Nat.zero_add] at hy
  have hxy : x = y := byte_eq_of_bits fun k hk => by rw [hbits k hk, hpayload j hj k hk, payloadBit, hy]
  rw [hx, hy, hxy]

/-- FRAME_ENCODE one carrier short of its exact fit raises CapacityError: at the length if the payload is empty, else at the
payload (43 R173). -/
theorem exec_frameEncode_one_short {s : State} (hcap : s.bufLen.toNat ≤ s.pixcap.toNat)
    (hpix : s.pix.initOn 0 s.bufLen.toNat) (hbuf : s.bufLen.toNat = 32 + 8 * s.dataLen.toNat - 1) :
    ∃ t, exec .frameEncode s = .next t ∧ t.status.err = .capacity := by
  by_cases hshort : s.bufLen.toNat < 32
  · exact ⟨_, exec_frameEncode_short hcap hshort, rfl⟩
  · obtain ⟨m, m', -, -, hexec⟩ :=
      exec_frameEncode_overflow hcap (by omega) (by omega) (initOn_mono hpix (by omega) (by omega))
    exact ⟨_, hexec, rfl⟩

/-- Settles O30: what FRAME_ENCODE leaves (O27) is the frame that FRAME_DECODE reads; the frame clauses are those of every
command (O9, O10). -/
theorem framerRoundTrip : Obligations.FramerRoundTrip := by
  refine ⟨fun s hcap hpix hfit hdat => ?_, fun s t h _ => ?_, fun s hcap hfit hpix hzero => ?_,
    fun s hcap hpix hdat => ⟨fun hbuf => ?_, exec_frameEncode_one_short hcap hpix⟩⟩
  · -- round trip
    have hframe : s.pix.initOn 0 (32 + 8 * s.dataLen.toNat) := initOn_mono hpix (by omega) (by omega)
    obtain ⟨m, hexec, hlength, hpayload, hupper, -⟩ := frameEncodeCompletes s hcap hfit hdat hframe
    refine ⟨_, hexec, rfl, fun u hu hbufLen hpixcap => ?_⟩
    refine exec_frameDecode_of_frame ?_ ?_ ?_ ?_ ?_ hdat
    · rwa [hbufLen, hpixcap]
    · rwa [hbufLen]
    · exact hu ▸ initOn_of_sameUpperBits hupper hframe
    · exact hu ▸ spells_zero_iff.2 hlength
    · exact hu ▸ hpayload
  · -- non-destruction
    obtain ⟨-, -, -, houtside, -⟩ := commandsLeaveOtherBytes _ _ _ h
    exact ⟨noCommandChangesUpperBits _ _ _ h, houtside rfl⟩
  · -- empty payload
    have hlen : s.dataLen.toNat = 0 := by simp [hzero]
    obtain ⟨m, hexec, hlength, -, hupper, -⟩ :=
      frameEncodeCompletes s hcap (by omega) (fun p hp => by omega) (by rwa [hlen])
    rw [hzero] at hlength
    exact ⟨_, hexec, rfl, fun i hi => by simpa using hlength i hi, _,
      exec_frameDecode_empty hcap (spells_zero_iff.2 hlength) hfit (initOn_of_sameUpperBits hupper hpix), rfl, rfl, rfl⟩
  · -- exact fit
    obtain ⟨m, hexec, -⟩ := frameEncodeCompletes s hcap (by omega) hdat (by rwa [← hbuf])
    exact ⟨_, hexec, rfl⟩

/-- Settles O31: the carriers spell 1000, and the payload's check, which comes before any read of it, fails. -/
theorem corruptedBufferIsOutOfBounds : Obligations.CorruptedBufferIsOutOfBounds := by
  intro s hbuf hcap hinit hbits
  have hbufLen : s.bufLen.toNat = 36 := by rw [hbuf]; rfl
  have hword : ∀ i < 32, (1000#32).getLsbD (31 - i) = decide (i = 22 ∨ i = 23 ∨ i = 24 ∨ i = 25 ∨ i = 26 ∨ i = 28) := by
    decide
  have hL : spells s.pix 0 1000#32 := spells_zero_iff.2 fun i hi => by rw [hbits i hi, hword i hi]
  have hover : s.bufLen.toNat < 32 + 8 * (1000#32).toNat := by rw [hbufLen]; decide
  rw [exec_frameDecode_of_spells (by omega) (by omega) hinit hL, lsbReadBits_outOfBounds _ hover, finishCommand_raised]
  rfl

end Sys2Proof.Machine
end

section
/-! PROOFS. The error codes: which command ends with which, and what the error leaves written (O5, O7, O11, O23). -/

namespace Sys2Proof.Machine

/-- A word with a reserved bit set, or whose OP is outside 1 to 7, is no command (30 R92). -/
theorem decode_ne_instr_of_fields {w : Word} (h : rsvField w ≠ 0#28 ∨ opField w = 0#4 ∨ 8 ≤ (opField w).toNat)
    (i : Instr) : decode w ≠ .instr i := by
  intro hi
  obtain ⟨hrsv, hop⟩ := (decode_eq_instr_iff w i).1 hi
  obtain ⟨hlow, hhigh⟩ := (exists_opCode_iff (opField w)).1 ⟨i, hop⟩
  rcases h with hreserved | hzero | hunassigned
  · exact hreserved hrsv
  · simp [hzero] at hlow
  · omega

/-- A command that ends with an error wrote STATUS only, except FRAME_ENCODE failing at the payload, both of whose stream
writes are in carriers 0 to 31 (60 R197, R198; 43 R171). -/
theorem exec_error {i : Instr} {s t : State} {e : ErrCode} (h : exec i s = .next t) (he : t.status.err = e)
    (hne : e ≠ .ok) :
    (cleanError i s e ∧ t = s.complete e) ∨
    (i = .frameEncode ∧ e = .capacity ∧ 32 ≤ s.bufLen.toNat ∧ s.bufLen.toNat < 32 + 8 * s.dataLen.toNat ∧
      ∃ m, t = (s.nextDraw.setPix m).complete e ∧ ∀ a, 32 ≤ a → Memory.read m a = Memory.read s.pix a) := by
  rcases exec_next h with ⟨e', hclean, rfl⟩ | ⟨-, v, rfl⟩ | ⟨-, rfl⟩ | ⟨-, v, rfl⟩ | ⟨-, -, -, bs, m, -, -, rfl⟩ |
    ⟨-, -, -, bs, -, rfl⟩ | ⟨-, -, -, m, bs, m', -, -, -, rfl⟩ | ⟨hi, -, h32, hover, v, w, m, m', hm, hm', rfl⟩ |
    ⟨-, -, L, bs, -, -, -, rfl⟩
  -- an error that writes STATUS only
  case inl =>
    obtain rfl : e' = e := he
    exact .inl ⟨hclean, rfl⟩
  -- FRAME_ENCODE failing at the payload: the length, then the free draw in its place
  case inr.inr.inr.inr.inr.inr.inr.inl =>
    obtain rfl : .capacity = e := he
    refine .inr ⟨hi, rfl, h32, hover, m', rfl, fun a ha => ?_⟩
    exact (writeCarriers_outside hm' (by simp; omega)).trans (writeCarriers_outside hm (by simp; omega))
  -- every other way a command completes has code 0
  all_goals exact absurd he.symm hne

/-- Every error but CAPACITY, which FRAME_ENCODE may raise at the payload, is one with STATUS alone written (60 R198). -/
theorem cleanError_of_ne_capacity {i : Instr} {s t : State} {e : ErrCode} (h : exec i s = .next t)
    (he : t.status.err = e) (hne : e ≠ .ok) (hcapacity : e ≠ .capacity) : cleanError i s e := by
  rcases exec_error h he hne with ⟨hclean, -⟩ | ⟨-, hcode, -⟩
  · exact hclean
  · exact absurd hcode hcapacity

/-- CAPACITY is raised by the commands that write PIX (60 R193). -/
theorem eq_lsbWrite_or_frameEncode_of_capacity {i : Instr} {s t : State} (h : exec i s = .next t)
    (he : t.status.err = .capacity) : i = .lsbWrite ∨ i = .frameEncode := by
  rcases exec_error h he (by decide) with ⟨hclean, -⟩ | ⟨hencode, -⟩
  · exact hclean.imp_right And.left
  · exact .inr hencode

/-- BAD_CONFIG is given only by the commands on PIX, and only when BUF_LEN > PIX_CAP (60 R196). -/
theorem accessesPix_of_badConfig {i : Instr} {s t : State} (h : exec i s = .next t) (he : t.status.err = .badConfig) :
    accessesPix i ∧ s.pixcap.toNat < s.bufLen.toNat :=
  cleanError_of_ne_capacity h he (by decide) (by decide)

/-- The check of a command on PIX comes before all it does (60 R196). -/
theorem exec_badConfig {i : Instr} {s : State} (hi : accessesPix i) (hbad : s.pixcap.toNat < s.bufLen.toNat) :
    exec i s = .next (s.complete .badConfig) := by
  have hcheck (k : State → CmdResult) : finishCommand (checkConfig s k) = .next (s.complete .badConfig) := by
    rw [checkConfig_bad k hbad, finishCommand_raised]
  rcases hi with rfl | rfl | rfl | rfl | rfl <;> exact hcheck _

/-- Settles O5: such a word decodes to no command. -/
theorem illegalWordCompletesWithItsCode : Obligations.IllegalWordCompletesWithItsCode :=
  fun _ hword => ⟨coreStep_of_illegal (decode_ne_instr_of_fields hword), rfl⟩

/-- Settles O7: the commands of each code are those of cleanError, and of the payload stage for CAPACITY. -/
theorem errorCodesAreThoseOfTheTable : Obligations.ErrorCodesAreThoseOfTheTable := by
  refine ⟨by decide, fun e => by cases e <;> decide, fun i s t h => ?_⟩
  have hclean (e : ErrCode) (he : t.status.err = e) := cleanError_of_ne_capacity h he
  refine ⟨fun he => hclean .range he (by decide) (by decide), eq_lsbWrite_or_frameEncode_of_capacity h,
    fun he => hclean .outOfBounds he (by decide) (by decide), fun he => hclean .illegalCmd he (by decide) (by decide),
    fun he => ?_⟩
  obtain ⟨haccess, -⟩ := accessesPix_of_badConfig h he
  exact haccess

/-- Settles O11: the two kinds of error, and no command changes bits 7..1 of PIX (O10). -/
theorem errorsArePrecise : Obligations.ErrorsArePrecise := by
  intro i s t e h he hne
  rcases exec_error h he hne with ⟨-, ht⟩ | ⟨hi, rfl, h32, hover, m, rfl, houtside⟩
  · exact .inl ht
  · exact .inr ⟨hi, rfl, h32, hover, m, rfl, noCommandChangesUpperBits _ _ _ h, houtside⟩

/-- Settles O23: the check comes first, and no other check gives its code. -/
theorem badConfigComesFirst : Obligations.BadConfigComesFirst :=
  ⟨fun _ _ => exec_badConfig, fun _ _ _ => accessesPix_of_badConfig⟩

end Sys2Proof.Machine
end

section
/-! PROOFS. The checks of LsbWrite and LsbReadBits that fail, command by command (O24, O25). A check comes before any
access of its procedure, so the window that does not fit need not be initialised. -/

namespace Sys2Proof.Machine

/-- LSB_WRITE whose window does not fit (41 R130, 60 R193). -/
theorem exec_lsbWrite_capacity {s : State} (hcap : s.bufLen.toNat ≤ s.pixcap.toNat)
    (hover : s.bufLen.toNat < s.bitOffset.toNat + 8 * s.dataLen.toNat) :
    exec .lsbWrite s = .next (s.complete .capacity) := by
  have hraised := (lsbWrite_eq_raised_iff s _ _ (Memory.read s.dat)).2 (Nat.not_le_of_lt hover)
  rw [exec_lsbWrite, execLsbWrite, checkConfig_ok _ hcap, hraised, finishCommand_raised]

/-- LSB_READ_INT whose window does not fit (42 R150, R151). -/
theorem exec_lsbReadInt_outOfBounds {s : State} (hcap : s.bufLen.toNat ≤ s.pixcap.toNat)
    (hover : s.bufLen.toNat < s.bitOffset.toNat + 32) : exec .lsbReadInt s = .next (s.complete .outOfBounds) := by
  rw [exec_lsbReadInt, execLsbReadInt, checkConfig_ok _ hcap, lsbReadBits_outOfBounds _ hover, finishCommand_raised]

/-- LSB_READ_BYTES whose window does not fit (42 R150, R152). -/
theorem exec_lsbReadBytes_outOfBounds {s : State} (hcap : s.bufLen.toNat ≤ s.pixcap.toNat)
    (hover : s.bufLen.toNat < s.bitOffset.toNat + 8 * s.dataLen.toNat) :
    exec .lsbReadBytes s = .next (s.complete .outOfBounds) := by
  rw [exec_lsbReadBytes, execLsbReadBytes, checkConfig_ok _ hcap, lsbReadBits_outOfBounds _ hover, finishCommand_raised]

/-- FRAME_DECODE whose length does not fit (43 R172). -/
theorem exec_frameDecode_short {s : State} (hcap : s.bufLen.toNat ≤ s.pixcap.toNat) (hshort : s.bufLen.toNat < 32) :
    exec .frameDecode s = .next (s.complete .outOfBounds) := by
  rw [exec_frameDecode, execFrameDecode, checkConfig_ok _ hcap, lsbReadBits_outOfBounds _ (by omega),
    finishCommand_raised]

/-- FRAME_DECODE whose payload, of the length that carriers 0 to 31 spell, does not fit (43 R172). -/
theorem exec_frameDecode_outOfBounds {s : State} {L : Word} (hcap : s.bufLen.toNat ≤ s.pixcap.toNat)
    (hfit : 32 ≤ s.bufLen.toNat) (hinit : s.pix.initOn 0 32) (hL : spells s.pix 0 L)
    (hover : s.bufLen.toNat < 32 + 8 * L.toNat) : exec .frameDecode s = .next (s.complete .outOfBounds) := by
  rw [exec_frameDecode_of_spells hcap hfit hinit hL, lsbReadBits_outOfBounds _ hover, finishCommand_raised]

/-- Settles O24: the check of LsbWrite fails, for the window of LSB_WRITE and for the length of FRAME_ENCODE. -/
theorem lsbWriteAndPrefixCapacityErrorsWriteNothing : Obligations.LsbWriteAndPrefixCapacityErrorsWriteNothing :=
  fun _ hcap => ⟨exec_lsbWrite_capacity hcap, exec_frameEncode_short hcap⟩

/-- Settles O25: the check of LsbReadBits fails, in each command that reads. -/
theorem outOfBoundsErrorsWriteNothing : Obligations.OutOfBoundsErrorsWriteNothing :=
  ⟨fun _ _ _ k hover => lsbReadBits_outOfBounds k hover, fun _ hcap =>
    ⟨exec_lsbReadInt_outOfBounds hcap, exec_lsbReadBytes_outOfBounds hcap, exec_frameDecode_short hcap,
      fun _ => exec_frameDecode_outOfBounds hcap⟩⟩

end Sys2Proof.Machine
end

section
/-! PROOFS. How OVR changes, from a CSR write up to a step, and that no command reads it (O41). -/

namespace Sys2Proof.Machine

/-- The host's next statement is a CSR write while BUSY = 1, which sets OVR (10 R37). -/
abbrev setsOvr (s : State) : Prop :=
  s.status.busy = true ∧ ∃ off v rest, s.prog = .write .csr off 4 v :: rest

/-- The host's next statement writes 1 to the bit of OVR in STATUS while BUSY = 0, which clears OVR (10 R29). -/
abbrev clearsOvr (s : State) : Prop :=
  s.status.busy = false ∧ ∃ v rest, s.prog = .write .csr 0x10 4 v :: rest ∧ v.getLsbD 8 = true

/-- A CSR write sets OVR if BUSY = 1, clears it if it writes 1 to its bit of STATUS, and else keeps it. -/
theorem csrWrite_ovr (s : State) (off : Nat) (v : Word) :
    (csrWrite s off v).status.ovr = s.status.ovr ∨
    (s.status.busy = true ∧ (csrWrite s off v).status.ovr = true) ∨
    (s.status.busy = false ∧ off = 0x10 ∧ v.getLsbD 8 = true ∧ (csrWrite s off v).status.ovr = false) := by
  rcases csrWrite_cases s off v with ⟨hbusy, h⟩ | ⟨hidle, h | ⟨-, h⟩ | ⟨hoff, h⟩ | h | h | h | h | h | h⟩ <;> rw [h]
  -- dropped
  · exact .inr (.inl ⟨hbusy, rfl⟩)
  -- no effect, an accepted command
  · exact .inl rfl
  · exact .inl rfl
  -- STATUS
  · by_cases hbit : v.getLsbD 8 = true
    · exact .inr (.inr ⟨hidle, hoff, hbit, if_pos hbit⟩)
    · exact .inl (if_neg hbit)
  -- the operand registers
  all_goals exact .inl rfl

/-- The host's turn changes OVR by a CSR write only. -/
theorem hostStep_ovr {s t : State} (h : hostStep s = .next t) :
    t.status.ovr = s.status.ovr ∨ (setsOvr s ∧ t.status.ovr = true) ∨ (clearsOvr s ∧ t.status.ovr = false) := by
  rcases hostStep_next h with ⟨p, n, rfl⟩ | ⟨sp, a, w, d, rest, u, hprog, hu, rfl⟩
  · exact .inl rfl
  · rcases hostWrite_ok hu with ⟨rfl, rfl, -, -, rfl⟩ | ⟨-, -, -, -, rfl⟩ | ⟨-, -, -, -, rfl⟩
    · rcases csrWrite_ovr s a d with hsame | ⟨hbusy, hset⟩ | ⟨hidle, rfl, hbit, hclear⟩
      · exact .inl hsame
      · exact .inr (.inl ⟨⟨hbusy, a, d, rest, hprog⟩, hset⟩)
      · exact .inr (.inr ⟨⟨hidle, d, rest, hprog, hbit⟩, hclear⟩)
    · exact .inl rfl
    · exact .inl rfl

/-- How OVR changes in a step: by the host's turn, or by a reset (60 R201). -/
theorem step_ovr {s t : State} (h : step s = .next t) :
    t.status.ovr = s.status.ovr ∨ (setsOvr s ∧ t.status.ovr = true) ∨
    ((s.sched.head? = some .reset ∨ clearsOvr s) ∧ t.status.ovr = false) := by
  obtain ⟨-, ⟨-, hcore⟩ | ⟨-, rfl⟩ | hhost | ⟨hreset, rfl⟩⟩ := step_next h
  · obtain ⟨-, -, hovr⟩ := coreStep_flags hcore
    exact .inl hovr
  · exact .inl rfl
  · rcases hostStep_ovr hhost with hsame | hset | ⟨hclears, hclear⟩
    · exact .inl hsame
    · exact .inr (.inl hset)
    · exact .inr (.inr ⟨.inr hclears, hclear⟩)
  · exact .inr (.inr ⟨.inl hreset, rfl⟩)

/-- OVR matters to no command, and every command keeps it (60 R201): it is one of the fields that exec_ignores_control
replaces, and the others are kept by the frame. -/
theorem exec_withOvr (i : Instr) (s : State) (b : Bool) :
    exec i (s.withOvr b) = mapNext (fun t => t.withOvr b) (exec i s) := by
  have hreplaced := exec_ignores_control i s s.cmd s.datcap s.faults { s.status with ovr := b }
  refine Eq.trans hreplaced ?_
  cases h : exec i s with
  | next t =>
    have hframe := exec_frame h
    rw [← hframe.cmd, ← hframe.datcap, ← hframe.faults]
    rfl
  | fault f => rfl
  | refused r => rfl

/-- Settles O41: of the ways OVR changes in a step, one sets it and two clear it. -/
theorem overrunFlagRule : Obligations.OverrunFlagRule := by
  refine ⟨fun s off v hbusy => by rw [csrWrite_busy hbusy]; rfl, fun s t h hbefore hafter => ?_,
    fun s t h hbefore hafter => ?_, exec_withOvr⟩
  · rcases step_ovr h with hsame | ⟨hsets, -⟩ | ⟨-, hclear⟩
    · simp [hbefore, hafter] at hsame
    · exact hsets
    · simp [hafter] at hclear
  · rcases step_ovr h with hsame | ⟨-, hset⟩ | ⟨hclears, -⟩
    · simp [hbefore, hafter] at hsame
    · simp [hafter] at hset
    · exact hclears

end Sys2Proof.Machine
end

section
/-! PROOFS. Reset (O33, O53), and how a pending command comes to an end over the turns that are named (O42). -/

namespace Sys2Proof.Machine

/-- After reset STATUS is clear and the memories are empty (70 R220, R221). -/
theorem resetWith_inv {p d : Word} (hcaps : p.toNat / 8 ≤ d.toNat) : (State.resetWith p d).Inv where
  caps := capsValid_iff.2 hcaps
  busyClear := by simp [State.resetWith, Status.reset]
  pixWf := List.Pairwise.nil
  datWf := List.Pairwise.nil
  pixBelow := by simp [State.resetWith]
  datBelow := by simp [State.resetWith]

/-- Settles O33: resetWith_inv, and the capacities of log 1 are a valid pair. -/
theorem resetMeetsTheInvariant : Obligations.ResetMeetsTheInvariant :=
  ⟨fun _ _ => resetWith_inv, resetWith_inv (by decide)⟩

/-- With a valid configuration, the step is the reset event when its turn is named (log 3). -/
theorem step_of_resetTurn {s : State} (hcaps : Config.capsValid s.pixcap s.datcap = true)
    (hturn : s.sched.head? = some .reset) : step s = .next (resetEvent { s with sched := s.sched.tail }) := by
  obtain ⟨rest, hsched⟩ := List.head?_eq_some_iff.1 hturn
  simp [step_of_capsValid hcaps, nextTurn, hsched, takeTurn]

/-- Settles O53: the event by its fields, and the named turn by step_of_resetTurn. -/
theorem resetEventClearsTheBlock : Obligations.ResetEventClearsTheBlock := fun _ =>
  ⟨rfl, fun _ => ⟨rfl, rfl⟩, step_of_resetTurn⟩

/-- The core agent's step completes the command and keeps CMD, or is UNINIT_READ (30 R99). -/
theorem coreStep_outcome (s : State) :
    (∃ t, coreStep s = .next t ∧ t.status.busy = false ∧ t.status.done = true ∧ t.cmd = s.cmd) ∨
    coreStep s = .fault .uninitRead := by
  rcases coreStep_cases s with ⟨i, -, hrun⟩ | ⟨_, -, hrun⟩ <;> rw [hrun]
  · rcases exec_outcome i s with ⟨t, ht, hbusy, hdone, -⟩ | hfault
    · exact .inl ⟨t, ht, hbusy, hdone, (exec_frame ht).cmd⟩
    · exact .inr hfault
  · exact .inl ⟨_, rfl, rfl, rfl, rfl⟩

/-- The host's turn leaves a pending command pending, with its word, the capacities and the turns as they were, or is a model
fault (10 R37, 20 R67). -/
theorem hostStep_outcome_of_busy {s : State} (hbusy : s.status.busy = true) :
    (∃ t, hostStep s = .next t ∧ t.status.busy = true ∧ t.pixcap = s.pixcap ∧ t.datcap = s.datcap ∧ t.cmd = s.cmd ∧
      t.sched = s.sched) ∨
    ∃ f, hostStep s = .fault f := by
  cases hhost : hostStep s with
  | next t =>
    obtain ⟨hframe, -, -⟩ := hostStep_of_busy hbusy hhost
    have hpending : t.status.busy = true := by
      rcases hostStep_accepts_or_keeps hhost with ⟨-, hkeep⟩ | ⟨-, haccept, -⟩
      · rw [hkeep, hbusy]
      · exact haccept
    exact .inl ⟨t, rfl, hpending, by rw [hframe], by rw [hframe], by rw [hframe], by rw [hframe]⟩
  | fault f => exact .inr ⟨f, rfl⟩
  | refused r => exact absurd hhost (hostStep_not_refused s r)

theorem run_one (s : State) : run 1 s = step s := by
  rw [run_succ]
  cases step s <;> rfl

/-- The command that is pending in s ends in this outcome: it completed, it was abandoned by a reset named in s, or a model
fault ended the run (70 R230). -/
def EndsPending (s : State) (o : Host.Outcome State Fault Refusal) : Prop :=
  (∃ t, o = .next t ∧ t.status.busy = false ∧ (.reset ∉ s.sched → t.status.done = true ∧ t.cmd = s.cmd)) ∨
  ∃ f, o = .fault f

/-- What ends the command pending in t ends the one in s, if it is the same command and every reset named in t is named
in s. -/
theorem EndsPending.of_later {s t : State} {o : Host.Outcome State Fault Refusal} (h : EndsPending t o)
    (hcmd : t.cmd = s.cmd) (hreset : .reset ∈ t.sched → .reset ∈ s.sched) : EndsPending s o := by
  rcases h with ⟨u, ho, hidle, hcompleted⟩ | hfault
  · exact .inl ⟨u, ho, hidle, fun hnone => hcmd ▸ hcompleted (mt hreset hnone)⟩
  · exact .inr hfault

theorem coreStep_endsPending (s : State) : EndsPending s (coreStep s) := by
  rcases coreStep_outcome s with ⟨t, ht, hidle, hcompleted⟩ | hfault
  · exact .inl ⟨t, ht, hidle, fun _ => hcompleted⟩
  · exact .inr ⟨_, hfault⟩

/-- A pending command ends within one step more than the turns named: the core agent's turn and a reset end it at once, and
the host's leaves it pending with one turn less. -/
theorem exists_run_endsPending (turns : List Turn) {s : State} (hsched : s.sched = turns)
    (hcaps : Config.capsValid s.pixcap s.datcap = true) (hbusy : s.status.busy = true) :
    ∃ k ≤ turns.length + 1, EndsPending s (run k s) := by
  induction turns generalizing s with
  | nil =>
    refine ⟨1, by simp, ?_⟩
    rw [run_one, step_of_pending hcaps hsched hbusy]
    exact coreStep_endsPending s
  | cons turn rest ih =>
    have hlater : .reset ∈ rest → .reset ∈ s.sched := by
      rw [hsched]
      exact List.mem_cons_of_mem turn
    cases turn with
    | core =>
      refine ⟨1, by simp, ?_⟩
      rw [run_one, step_of_coreTurn hcaps hbusy (.inr (by simp [hsched])), hsched, List.tail_cons]
      exact (coreStep_endsPending { s with sched := rest }).of_later rfl hlater
    | reset =>
      refine ⟨1, by simp, ?_⟩
      rw [run_one, step_of_resetTurn hcaps (by simp [hsched])]
      exact .inl ⟨_, rfl, rfl, fun hnone => absurd (by simp [hsched]) hnone⟩
    | host =>
      have hstep : step s = hostStep { s with sched := rest } := by
        simpa [hsched] using step_of_hostTurn hcaps (.inl (by simp [hsched]))
      rcases hostStep_outcome_of_busy (s := { s with sched := rest }) hbusy with
        ⟨t, ht, hpending, hpixcap, hdatcap, hcmd, hrest⟩ | ⟨f, hfault⟩
      · obtain ⟨k, hk, hends⟩ := ih hrest (by rw [hpixcap, hdatcap]; exact hcaps) hpending
        refine ⟨k + 1, by simpa using hk, ?_⟩
        rw [run_succ, hstep, ht]
        exact hends.of_later hcmd (hrest ▸ hlater)
      · exact ⟨1, by simp, .inr ⟨f, by rw [run_one, hstep, hfault]⟩⟩

/-- Settles O42: the end within the turns named is exists_run_endsPending, and the core agent's own step is
coreStep_outcome. -/
theorem pendingCommandEnds : Obligations.PendingCommandEnds := by
  intro s hcaps hbusy
  rw [← and_assoc]
  constructor
  · obtain ⟨k, hk, ⟨t, hrun, hidle, hcompleted⟩ | ⟨f, hrun⟩⟩ := exists_run_endsPending s.sched rfl hcaps hbusy
    · exact ⟨⟨k, hk, by rw [hrun]; exact hidle⟩, fun hnone => ⟨k, hk, by rw [hrun]; exact ⟨hidle, hcompleted hnone⟩⟩⟩
    · exact ⟨⟨k, hk, by rw [hrun]; trivial⟩, fun _ => ⟨k, hk, by rw [hrun]; trivial⟩⟩
  · intro hcore
    have hturn : s.sched = [] ∨ s.sched.head? = some .core := by
      cases hsched : s.sched with
      | nil => exact .inl rfl
      | cons turn rest => exact .inr (congrArg some (hcore turn (by simp [hsched])))
    rw [step_of_coreTurn hcaps hbusy hturn]
    rcases coreStep_outcome { s with sched := s.sched.tail } with ⟨t, ht, hcompleted⟩ | hfault
    · rw [ht]
      exact hcompleted
    · rw [hfault]

end Sys2Proof.Machine
end
